-- ==== Sys2Proof/Word.lean ====
section
/-! DEFINITION. The word types of the LFPWM block (00_scope.md rules R5 and R7). -/

namespace Sys2Proof

/-- `NSLOT`: the registry has one slot per pin number, and there are 16 (R5). -/
abbrev nslot : Nat := 16

/-- A pin number, which is also the index of its registry slot and the handle of its channel
(R11, R64). The type cannot express a pin outside 0 to 15 (R41). -/
abbrev Pin := Fin 16

/-- One register for each of the 16 pins (R11). -/
abbrev PerPin (α : Type) := Vector α 16

/-- A setpoint, 8 bits unsigned (R12). 256 is not representable (D27). -/
abbrev Setpoint := BitVec 8

/-- The storage field of an accumulator, 16 bits (R13). -/
abbrev Accumulator := BitVec 16

/-- A host command word, format H (R60). -/
abbrev CommandWord := BitVec 16

/-- A sample of the 32-bit `CLK` input (R120). -/
abbrev ClockSample := BitVec 32

/-- A masked clock reading, 31 bits (R18, R120). -/
abbrev MaskedClock := BitVec 31

/-- A value of `NUM`: the 64 bits of an IEEE 754 binary64 (R5, R19, R124). -/
abbrev NUM := BitVec 64

end Sys2Proof
end

