-- ==== Sys2Proof/Machine/Operands.lean ====
section
/-! DEFINITION. The operand fields of a command word, format H (30_encoding.md rules R60 and R64), and
the word made of given fields (R68). -/

namespace Sys2Proof.Machine

/-- `op = w[15:12]` (R60). -/
def opField (w : CommandWord) : BitVec 4 := w.extractLsb' 12 4

/-- `p = w[11:8]`, used unsigned (R64). -/
def pinField (w : CommandWord) : Pin := (w.extractLsb' 8 4).toFin

/-- `imm8 = w[7:0]`, the new setpoint of `SETSP` (R64). -/
def immField (w : CommandWord) : Setpoint := w.extractLsb' 0 8

/-- The word with the given fields, `(op << 12) | (p << 8) | imm8` (R68). -/
def packWord (op : BitVec 4) (p : Pin) (imm : Setpoint) : CommandWord :=
  op.setWidth 16 <<< 12 ||| (BitVec.ofFin (w := 4) p).setWidth 16 <<< 8 ||| imm.setWidth 16

/-- A pin number as the 8-bit `data` of a response, `zext_8(p)` (R62). -/
def pinData (p : Pin) : BitVec 8 := (BitVec.ofFin (w := 4) p).setWidth 8

end Sys2Proof.Machine
end

