-- ==== Sys2Proof/Config.lean ====
section
/-! DEFINITION. Implementation parameters of the LFPWM block (00_scope.md rule R5): the constants the
source fixes, the configuration record that the operations take as an argument, and the open
parameters of the platform. An open parameter is an `opaque` constant without a body: no proof can
learn its value, so what is proved of the machine holds for every platform. -/

namespace Sys2Proof

/-- `CLKMASK`: the mask of a clock reading (R5, R120). -/
def clockMask : ClockSample := 0x7FFFFFFF

/-- `WRAP`: the wrap period of the masked clock, 2^31 time units (R5). -/
def wrapPeriod : Nat := 2147483648

/-- The bit pattern of 2^30 as a binary64. The patterns from 1 up to but excluding it are exactly the
finite positive binary64 values below 2^30, the range of `TIME_DELTA` (R17, D34). -/
abbrev timeDeltaBound : Nat := 0x41D0000000000000

/-- `NUM` and `ROUND` as the operations use them (R5, R7, R124, U16): the conversion of an integer,
the quotient that gives `TIME_DELTA`, the sum, and the rounding to an integer. -/
structure Numerics where
  /-- `ofInt(i)`: the value of an integer. -/
  ofInt : Int → NUM
  /-- The value of `n / d`, rounded once (R17, D17). -/
  ofRatio : Nat → Nat → NUM
  /-- `fadd(a, b)`: the sum. -/
  add : NUM → NUM → NUM
  /-- `roundInt(x)`: the `ROUND` function. -/
  roundInt : NUM → Int

/-- `F`, a frequency of `num / den` Hz. R5 makes it a positive real; a ratio gives every `TIME_DELTA` that
a real gives (log 4). -/
structure Frequency where
  num : Nat
  den : Nat
  deriving DecidableEq, Repr

/-- `UPS / F`, rounded once in `NUM` (R5, R17, D17). -/
def quotientOf (num : Numerics) (ups : Nat) (f : Frequency) : NUM := num.ofRatio (ups * f.den) f.num

/-- A value lies in the range of `TIME_DELTA`: finite, positive and below 2^30 (R17, D34). -/
abbrev timeDeltaInRange (x : NUM) : Prop := 0 < x.toNat ∧ x.toNat < timeDeltaBound

/-- The configuration record (R5): what is fixed when the block is built. -/
structure Config where
  /-- `NUM` and `ROUND` (R124). -/
  num : Numerics
  /-- `UPS`: time units per second. -/
  ups : Nat
  /-- `F`: the target frequency in Hz, the rate of ticks. -/
  f : Frequency
  /-- `UPS` is positive (R5), and every integer given to `ofInt` is below 2^53 (R7; log 3). -/
  ups_range : 0 < ups ∧ ups + wrapPeriod ≤ 2 ^ 53
  /-- `F` is positive (R5). -/
  f_positive : 0 < f.num ∧ 0 < f.den
  /-- `TIME_DELTA` is finite, positive and below 2^30 (R17, D34). -/
  timeDelta_range : timeDeltaInRange (quotientOf num ups f)
  /-- `PIN_OK`: whether the GPIO facility accepts the pin as an output, a function of the pin (R160). -/
  pinOk : Pin → Bool
  /-- `PULL_MODE`: the pull argument of every `gpio_configure`, default 0 (R5, R160). -/
  pullMode : BitVec 2 := 0
  /-- `LVL_RESET`: the output latches after the k-th reset (R24, R212; log 5). -/
  lvlReset : Nat → Pin → Bool

namespace Config

/-- `TIME_DELTA`, the tick period in time units: `UPS / F` (R17). -/
def timeDelta (c : Config) : NUM := quotientOf c.num c.ups c.f

/-- Open parameter `UPS` (log 2). -/
opaque openUps : Nat

/-- Open parameter `F`: its numerator in Hz (log 2, log 4). -/
opaque openFNum : Nat

/-- Open parameter `F`: its denominator (log 2, log 4). -/
opaque openFDen : Nat

/-- Open parameter `PIN_OK` (log 2, log 13). -/
opaque openPinOk : Pin → Bool

/-- Open parameter `PULL_MODE` (log 2). -/
opaque openPullMode : BitVec 2

/-- Open parameter `LVL_RESET`: the latch of a pin after the k-th reset (log 2, log 5). -/
opaque openLvlReset : Nat → Pin → Bool

/-- Free value: what the `CLK` port shows when the machine comes out of its first reset (R212; log 6). -/
opaque openClock : ClockSample

/-- Free value: sign and payload of the NaN that a sum without a numeric result gives (log 10). -/
opaque nanPattern : NUM → NUM → BitVec 52

/-- Free value: the integer that `roundInt` gives for an operand that is no finite number (log 10). -/
opaque roundNonFinite : NUM → Int

end Config

end Sys2Proof
end

