-- ==== Sys2Proof/Machine/Binary64.lean ====
section
/-! DEFINITION. `NUM` and `ROUND` (42_timer_rearm.md rule R124): IEEE 754 binary64 on its 64 bits (the
bit layout is PRESUMED from IEEE 754, log 1). Every finite value is an integer multiple of 2^-1074, so
a sum is formed exactly as an integer in that unit and rounded once, and so is a quotient as a ratio of
integers. -/

namespace Sys2Proof.Machine.Binary64

/-- The number 1, counted in units of 2^-1074. -/
@[irreducible] def oneUnit : Nat := 2 ^ 1074

/-- The sign bit. -/
def negative (x : NUM) : Bool := x.getLsbD 63

/-- The biased exponent, 11 bits. -/
def expField (x : NUM) : Nat := (x.extractLsb' 52 11).toNat

/-- The fraction, 52 bits. -/
def fracField (x : NUM) : Nat := (x.extractLsb' 0 52).toNat

/-- Neither an infinity nor a NaN. -/
def isFinite (x : NUM) : Bool := decide (expField x < 2047)

/-- A NaN. -/
def isNaN (x : NUM) : Bool := decide (expField x = 2047) && decide (fracField x ≠ 0)

/-- The magnitude of a finite value in units of 2^-1074. -/
def magnitude (x : NUM) : Nat :=
  if expField x = 0 then fracField x else (2 ^ 52 + fracField x) <<< (expField x - 1)

/-- A finite value in units of 2^-1074, with its sign. -/
def scaled (x : NUM) : Int := if negative x then -(magnitude x : Int) else magnitude x

/-- The bits, without sign, of the binary64 nearest to the magnitude `n / d` in units of 2^-1074: nearest,
ties to even, infinity past the largest finite value. The significand `q` has at most 53 bits; adding
it to the exponent's place carries the leading bit and a rounding overflow into the exponent. -/
def roundQuotient (n d : Nat) : Nat :=
  let e := Nat.log2 (n / d) - 52
  let w := d * 2 ^ e
  let q := n / w
  let r := n % w
  let up := if w < 2 * r ∨ (2 * r = w ∧ q % 2 = 1) then 1 else 0
  min (e * 2 ^ 52 + (q + up)) (2047 * 2 ^ 52)

/-- The bits, without sign, of the binary64 nearest to a magnitude in units of 2^-1074. -/
def roundMagnitude (n : Nat) : Nat := roundQuotient n 1

/-- The binary64 nearest to `n / d`, ties to even (R17, D17). -/
def ofRatio (n d : Nat) : NUM := BitVec.ofNat 64 (roundQuotient (n * oneUnit) d)

/-- The binary64 nearest to an integer number of units of 2^-1074, ties to even; 0 gives +0.0. -/
def roundScaled (n : Int) : NUM :=
  BitVec.ofNat 64 ((if n < 0 then 2 ^ 63 else 0) + roundMagnitude n.natAbs)

/-- `ofInt(i)`: the value of an integer, exact below 2^53 in magnitude (R7, R124). -/
def ofInt (i : Int) : NUM := roundScaled (i * oneUnit)

/-- A quiet NaN whose sign and payload are free (log 10). -/
def freeNaN (a b : NUM) : NUM :=
  let free := Config.nanPattern a b
  free.extractLsb' 51 1 ++ (0xFFF : BitVec 12) ++ free.extractLsb' 0 51

/-- The sum of finite values: exact, then rounded once; an exact zero is +0.0 unless both operands are
negative zeros (R124). -/
def addFinite (a b : NUM) : NUM :=
  if scaled a + scaled b = 0 then
    if negative a && negative b then 0x8000000000000000 else 0
  else roundScaled (scaled a + scaled b)

/-- `fadd(a, b)` (R124). The last lines are for operands that are no finite numbers, which no run
reaches (log 10). -/
def add (a b : NUM) : NUM :=
  if isFinite a && isFinite b then addFinite a b
  else if isNaN a || isNaN b then freeNaN a b
  else if isFinite b then a
  else if isFinite a then b
  else if a = b then a
  else freeNaN a b

/-- `roundInt(x)`: the nearest integer, ties away from zero (R124). -/
def roundInt (x : NUM) : Int :=
  if isFinite x then
    let k := (2 * magnitude x + oneUnit) / (2 * oneUnit)
    if negative x then -(k : Int) else k
  else Config.roundNonFinite x

/-- The decided defaults of `NUM` and `ROUND`: binary64, ties away from zero (R5, D17, D18). -/
def numerics : Numerics := { ofInt := ofInt, ofRatio := ofRatio, add := add, roundInt := roundInt }

end Sys2Proof.Machine.Binary64
end

