-- ==== Sys2Proof/Machine/Platform.lean ====
section
/-! DEFINITION. The platform the machine runs on: the configuration record of the open parameters with
the decided defaults of `NUM` and `ROUND` (00_scope.md rule R5). -/

namespace Sys2Proof.Machine

/-- `UPS` and `F` are such as the rules allow (R5, R7, R17; log 3). -/
abbrev ratesAllowed (ups : Nat) (f : Frequency) : Prop :=
  (0 < ups ∧ ups + wrapPeriod ≤ 2 ^ 53) ∧ (0 < f.num ∧ 0 < f.den) ∧
    timeDeltaInRange (quotientOf Binary64.numerics ups f)

/-- The open `F`. -/
def openF : Frequency := { num := Config.openFNum, den := Config.openFDen }

/-- `UPS` and `F` of the platform: the open values if the rules allow them, else one unit per second and
one tick per second, which they allow. Every allowed pair is a value of the open constants (log 2). -/
def platformRates : Nat × Frequency :=
  if ratesAllowed Config.openUps openF then (Config.openUps, openF) else (1, { num := 1, den := 1 })

theorem platformRates_allowed : ratesAllowed platformRates.1 platformRates.2 := by
  unfold platformRates
  split
  · assumption
  · decide +kernel

/-- The configuration of the machine. -/
def platform : Config where
  num := Binary64.numerics
  ups := platformRates.1
  f := platformRates.2
  ups_range := platformRates_allowed.1
  f_positive := platformRates_allowed.2.1
  timeDelta_range := platformRates_allowed.2.2
  pinOk := Config.openPinOk
  pullMode := Config.openPullMode
  lvlReset := Config.openLvlReset

end Sys2Proof.Machine
end

