-- ==== Sys2Proof/Syntax.lean ====
section
/-! DEFINITION. The six operations of the block, one constructor per row of spec/opcode_table.json
(00_scope.md rule R2, 30_encoding.md rule R63), and the words that carry them. -/

namespace Sys2Proof

/-- An operation of the block (R2). The operands are those of R64, at their own widths. -/
inductive Instr where
  /-- `INIT p` (R140). -/
  | init (p : Pin)
  /-- `START p` (R144). -/
  | start (p : Pin)
  /-- `STOP p` (R145). -/
  | stop (p : Pin)
  /-- `SETSP p, v` (R84). -/
  | setsp (p : Pin) (v : Setpoint)
  /-- `GETSP p` (R85). -/
  | getsp (p : Pin)
  /-- `TICK` (R100). -/
  | tick
  deriving DecidableEq, Repr

/-- What an operation is presented as: a 16-bit command word on the host port (format H, R60) or the
1-bit event input of the timer port (format E, R61). -/
inductive PortWord where
  | host (w : CommandWord)
  | timer (fire : BitVec 1)
  deriving DecidableEq, Repr

end Sys2Proof
end

