-- ==== Sys2Proof/Machine/State.lean ====
section
/-! DEFINITION. The state of the block (10_state.md rules R10 to R25), the types of what it emits and of
what reaches it from outside, the reasons a step can stop, and the state after reset. -/

namespace Sys2Proof.Machine

/-- The phase of the tick sequencer, the register `PH` (R22). Values 17 to 30 do not exist (U12). -/
inductive Phase where
  | idle
  | scan (i : Pin)
  | rearm
  deriving DecidableEq, Repr

/-- The status of a response; code 3 is never produced (R62, U10). -/
inductive Status where
  /-- `OK`, code 0. -/
  | ok
  /-- `GPIO_CONFIG_FAILED`, code 1. -/
  | gpioConfigFailed
  /-- `ILLEGAL_COMMAND`, code 2. -/
  | illegalCommand
  deriving DecidableEq, Repr

/-- The response to a command, format S (R62). -/
structure Response where
  status : Status
  data : BitVec 8
  deriving DecidableEq, Repr

/-- What the block emits: its calls on the two facilities, with the answer where there is one, and its
responses to HOST (R7, R164). -/
inductive Event where
  /-- `gpio_configure(pin, pull, dir) -> ok` (R160). -/
  | gpioConfigure (pin : Pin) (pull : BitVec 2) (dir : Bool) (ok : Bool)
  /-- `gpio_set_level(pin, level)` (R161). -/
  | gpioSetLevel (pin : Pin) (level : Bool)
  /-- `read_clock() -> c` (R120). -/
  | readClock (c : ClockSample)
  /-- `timer_disarm()` (R126). -/
  | timerDisarm
  /-- `timer_arm(delay)` with the value of the port `TMR_DELAY` (R126). -/
  | timerArm (delay : BitVec 32)
  /-- `respond(status, data)` (R62). -/
  | respond (r : Response)
  deriving DecidableEq, Repr

/-- What the environment shows next on the input ports, once nothing is pending (R164, R165; log 7): at most
one command word presented, at most one expiry raised, a value of the clock, and whether `rst_n` is
asserted. -/
structure Input where
  cmd : Option CommandWord
  fire : Bool
  clk : ClockSample
  rst : Option Nat
  deriving DecidableEq, Repr

/-- The state of the block. The registers are those of R11 to R24; `cmd`, `fire`, `clk` and `rst` are input
ports that hold their value until the block takes it (R164, R181, R183, R210); `inputs`, `events` and
`resets` are the model's own (log 5, 7, 9). -/
structure State where
  /-- `REG[p]`: slot p holds a link to channel p (R14). -/
  reg : PerPin Bool
  /-- `SP[p]`: the setpoint (R12). -/
  sp : PerPin Setpoint
  /-- `ACC[p]`: the accumulator's storage field (R13). -/
  acc : PerPin Accumulator
  /-- `RUN`: the timer has ever been armed (R16). -/
  run : Bool
  /-- `LAST`: the last masked clock reading (R18). -/
  last : MaskedClock
  /-- `NEXT`: the ideal deadline of the next tick (R19). -/
  next : NUM
  /-- `PH`: the phase of SEQ (R22). -/
  ph : Phase
  /-- `ARMED`: the one-shot is armed (R23). -/
  armed : Bool
  /-- `DIR[p]`: pin p is configured as an output (R24). -/
  dir : PerPin Bool
  /-- `LVL[p]`: the level last set on pin p (R24). -/
  lvl : PerPin Bool
  /-- `CMD_VALID` and `CMD`: the command word presented and not yet accepted (R164, R165). -/
  cmd : Option CommandWord
  /-- `TMR_FIRE`: an expiry raised and not yet accepted (R181). -/
  fire : Bool
  /-- `CLK`: the clock of the timer facility as the port shows it (R120, R164). -/
  clk : ClockSample
  /-- `rst_n`: none while it is high. Asserted low, the number says how many calls of the tick or the
  command then in progress the block has issued when the reset abandons it, 0 for a reset between
  operations (R164, R210; log 11). -/
  rst : Option Nat
  /-- What the environment will do, in order. -/
  inputs : List Input
  /-- What the block has emitted, in order (R106, R162). -/
  events : List Event
  /-- How many resets came before the present run of the block. -/
  resets : Nat
  deriving DecidableEq, Repr

/-- Faults: none. "A model therefore needs no fault state for the block itself" (R179). -/
inductive Fault where
  deriving DecidableEq, Repr

/-- Refusals of a step. -/
inductive Refusal where
  /-- Raised by an arm of `exec` whose instruction has no meaning yet; no arm raises it. Safe: the
  machine stops. -/
  | notModelled (mnemonic : String)
  deriving DecidableEq, Repr

/-- The registers at their reset values (R25, R210) after the k-th reset, on the platform `c`; the clock
port, what is still to come and what has been emitted are no registers and are given. -/
def State.afterReset (c : Config) (k : Nat) (clk : ClockSample) (inputs : List Input)
    (events : List Event) : State where
  reg := Vector.replicate 16 false
  sp := Vector.replicate 16 0
  acc := Vector.replicate 16 0
  run := false
  last := 0
  next := 0
  ph := .idle
  armed := false
  dir := Vector.replicate 16 false
  lvl := Vector.ofFn (c.lvlReset k)
  cmd := none
  fire := false
  clk := clk
  rst := none
  inputs := inputs
  events := events
  resets := k

/-- The machine right after reset, before anything reaches it (R25, R210, R211). -/
def State.reset : State := State.afterReset platform 0 Config.openClock [] []

end Sys2Proof.Machine
end

