-- ==== Sys2Proof/Machine/Ops.lean ====
section
/-! DEFINITION. The named operations over the registers, the calls on the two facilities, the response,
raising an exception, and the entry to and the return from the timer interrupt. -/

namespace Sys2Proof.Machine

/-- The register of pin p in a file of 16 (R7, R11). -/
def readPin {α : Type} (f : PerPin α) (p : Pin) : α := f[p.val]

/-- The file with the register of pin p written (R7, R11). -/
def writePin {α : Type} (f : PerPin α) (p : Pin) (x : α) : PerPin α := f.set p.val x p.isLt

/-- `REG[p] <- b`. -/
def State.setReg (s : State) (p : Pin) (b : Bool) : State := { s with reg := writePin s.reg p b }

/-- `SP[p] <- v`. -/
def State.setSp (s : State) (p : Pin) (v : Setpoint) : State := { s with sp := writePin s.sp p v }

/-- `ACC[p] <- a`. -/
def State.setAcc (s : State) (p : Pin) (a : Accumulator) : State :=
  { s with acc := writePin s.acc p a }

/-- `DIR[p] <- b`. -/
def State.setDir (s : State) (p : Pin) (b : Bool) : State := { s with dir := writePin s.dir p b }

/-- `LVL[p] <- b`. -/
def State.setLvl (s : State) (p : Pin) (b : Bool) : State := { s with lvl := writePin s.lvl p b }

/-- `RUN <- b`. -/
def State.setRun (s : State) (b : Bool) : State := { s with run := b }

/-- `LAST <- now`. -/
def State.setLast (s : State) (now : MaskedClock) : State := { s with last := now }

/-- `NEXT <- x`. -/
def State.setNext (s : State) (x : NUM) : State := { s with next := x }

/-- `PH <- phase`. -/
def State.setPh (s : State) (ph : Phase) : State := { s with ph := ph }

/-- `ARMED <- b`. -/
def State.setArmed (s : State) (b : Bool) : State := { s with armed := b }

/-- Record a call or a response, after all earlier ones (R106, R162). -/
def State.emit (s : State) (e : Event) : State := { s with events := s.events ++ [e] }

/-- Primitive `register(p)` (R80). -/
def register (p : Pin) (s : State) : State := s.setReg p true

/-- Primitive `unregister(p)` (R81). -/
def unregister (p : Pin) (s : State) : State := s.setReg p false

/-- `gpio_configure(p, PULL_MODE, 1)`: the answer is `PIN_OK(p)`; `DIR[p]` becomes 1 when it is true
(R160). -/
def gpioConfigure (c : Config) (p : Pin) (s : State) : State :=
  let s := s.emit (.gpioConfigure p c.pullMode true (c.pinOk p))
  if c.pinOk p then s.setDir p true else s

/-- `gpio_set_level(p, level)` (R161). -/
def gpioSetLevel (p : Pin) (level : Bool) (s : State) : State :=
  (s.emit (.gpioSetLevel p level)).setLvl p level

/-- `read_clock()`: the block samples the port `CLK`; it changes nothing else (R47, R120). -/
def readClock (s : State) : State := s.emit (.readClock s.clk)

/-- The masked reading, bits 30:0 of the sample (R120). -/
def maskClock (c : ClockSample) : MaskedClock := (c &&& clockMask).setWidth 31

/-- `timer_disarm()` (R126). -/
def timerDisarm (s : State) : State := (s.emit .timerDisarm).setArmed false

/-- `timer_arm(delay)`: the port carries the low 32 bits, two's complement (R126). -/
def timerArm (delay : Int) (s : State) : State :=
  (s.emit (.timerArm (BitVec.ofInt 32 delay))).setArmed true

/-- `respond(status, data)` (R62). -/
def respond (status : Status) (data : BitVec 8) (s : State) : State :=
  s.emit (.respond { status := status, data := data })

/-- The synchronous exceptions of a host command (R175, R176, R177). -/
inductive CommandException where
  /-- `GpioConfigurationFailed`, raised by `INIT` only (R176). -/
  | gpioConfigurationFailed
  /-- `ILLEGAL_COMMAND`, raised for an illegal word (R177). -/
  | illegalCommand
  deriving DecidableEq, Repr

/-- The status code that reports an exception (R176, R177). -/
def CommandException.status : CommandException → Status
  | .gpioConfigurationFailed => .gpioConfigFailed
  | .illegalCommand => .illegalCommand

/-- `raise X`: the command ends with X's status and data 0; no register is written (R175). -/
def raise (x : CommandException) (s : State) : State := respond x.status 0 s

/-- The block accepts an expiry only while `ARMED = 1` and SEQ is idle (R181, R185). -/
def expiryAccepted (s : State) : Bool := s.armed && decide (s.ph = .idle)

/-- Entry to the timer interrupt: the one-shot is spent and SEQ starts with slot 0; nothing is saved
(R181, R184). -/
def enterTick (s : State) : State := (s.setArmed false).setPh (.scan 0)

/-- Return from the timer interrupt: SEQ is idle; nothing is restored (R185). -/
def leaveTick (s : State) : State := s.setPh .idle

end Sys2Proof.Machine
end

