-- ==== Sys2Proof/Machine/Lifecycle.lean ====
section
/-! DEFINITION. `INIT`, `START` and `STOP` (43_lifecycle.md). -/

namespace Sys2Proof.Machine

/-- `ARM_FIRST`: the one-time start of the scheduler (R141). -/
def armFirst (c : Config) (s : State) : State :=
  let n0 := maskClock s.clk
  let s := (readClock s).setLast n0
  let s := s.setNext (c.num.ofInt (n0.toNat + c.ups))
  timerArm c.ups (timerDisarm s)

/-- Step 3 of `INIT`: the first success arms the timer and sets `RUN` (R140, R141). -/
def ensureRunning (c : Config) (s : State) : State :=
  if s.run then s else (armFirst c s).setRun true

/-- Steps 3 to 6 of `INIT`, once the pin is configured (R140). -/
def initChannel (c : Config) (p : Pin) (s : State) : State :=
  let s := ensureRunning c s
  let s := (s.setSp p 0).setAcc p 0
  respond .ok (pinData p) (register p s)

/-- `INIT p` on the platform `c`: configure, and then either create the channel or raise
`GpioConfigurationFailed` (R140, R142, R143). -/
def initOn (c : Config) (p : Pin) (s : State) : State :=
  let s := gpioConfigure c p s
  if c.pinOk p then initChannel c p s else raise .gpioConfigurationFailed s

/-- `INIT p` (R140). -/
def execInit (p : Pin) (s : State) : Host.Outcome State Fault Refusal :=
  .next (initOn platform p s)

/-- `START p`: `register(p); respond(OK, 0)` (R144). -/
def execStart (p : Pin) (s : State) : Host.Outcome State Fault Refusal :=
  .next (respond .ok 0 (register p s))

/-- `STOP p`: `unregister(p); respond(OK, 0)` (R145). -/
def execStop (p : Pin) (s : State) : Host.Outcome State Fault Refusal :=
  .next (respond .ok 0 (unregister p s))

end Sys2Proof.Machine
end

