-- ==== Sys2Proof/Machine/Registry.lean ====
section
/-! DEFINITION. `SETSP` and `GETSP` (40_registry_and_setpoint.md). -/

namespace Sys2Proof.Machine

/-- `SETSP p, v`: `SP[p] <- v; respond(OK, 0)` (R84). -/
def execSetsp (p : Pin) (v : Setpoint) (s : State) : Host.Outcome State Fault Refusal :=
  .next (respond .ok 0 (s.setSp p v))

/-- `GETSP p`: `respond(OK, SP[p])` (R85). -/
def execGetsp (p : Pin) (s : State) : Host.Outcome State Fault Refusal :=
  .next (respond .ok (readPin s.sp p) s)

end Sys2Proof.Machine
end

