-- ==== Sys2Proof/Machine/Flags.lean ====
section
/-! DEFINITION. The one flag of the block, the transient carry of a slot's 9-bit sum, and the
accumulator modulator it belongs to (10_state.md rule R21, 41_tick_modulator.md rules R102 to R105). -/

namespace Sys2Proof.Machine

/-- The sum of the accumulate step, formed in the 16-bit field: `ACC +_16 zext_16(SP)` (R102). -/
def slotSum (acc : Accumulator) (sp : Setpoint) : BitVec 16 := acc + sp.setWidth 16

/-- The carry `C = sum[8]`, the level of the drive step (R102, R103). -/
def carry (sum : BitVec 16) : Bool := sum.getLsbD 8

/-- The mask step: `sum & 0x00FF` (R104). -/
def maskSum (sum : BitVec 16) : Accumulator := sum &&& 0x00FF

/-- The modulator as a pure function: the level and the new accumulator, from the 9-bit sum (R105). -/
def modStep (a : BitVec 8) (s : Setpoint) : Bool × BitVec 8 :=
  let t : BitVec 9 := a.setWidth 9 + s.setWidth 9
  (t.getLsbD 8, t.setWidth 8)

/-- The accumulator after n ticks of a registered channel with setpoint s (R107). -/
def modAcc (a : BitVec 8) (s : Setpoint) : Nat → BitVec 8
  | 0 => a
  | n + 1 => (modStep (modAcc a s n) s).2

/-- The level driven at tick n, counted from 1; tick 0 is no tick (R107). -/
def modLevel (a : BitVec 8) (s : Setpoint) : Nat → Bool
  | 0 => false
  | n + 1 => (modStep (modAcc a s n) s).1

/-- The levels of ticks 1 to n, in order (R107). -/
def modLevels (a : BitVec 8) (s : Setpoint) (n : Nat) : List Bool :=
  (List.range n).map fun k => modLevel a s (k + 1)

end Sys2Proof.Machine
end

