-- ==== Sys2Proof/Machine/Tick.lean ====
section
/-! DEFINITION. `TICK`: the sequencer, the slot scan (41_tick_modulator.md) and the rearm
(42_timer_rearm.md). -/

namespace Sys2Proof.Machine

/-- The three steps of an occupied slot: accumulate, drive the carry, mask (R102, R103, R104). -/
def slot (i : Pin) (s : State) : State :=
  let sum := slotSum (readPin s.acc i) (readPin s.sp i)
  (gpioSetLevel i (carry sum) s).setAcc i (maskSum sum)

/-- The visit of slot i: an empty slot is skipped (R101). -/
def visitSlot (i : Pin) (s : State) : State := if readPin s.reg i then slot i s else s

/-- The clock has wrapped since the previous reading: an unsigned comparison (R121). -/
def wrapped (now last : MaskedClock) : Bool := now.ult last

/-- The wrap adjustment of the deadline (R122). -/
def adjustWrap (c : Config) (now : MaskedClock) (s : State) : State :=
  if wrapped now s.last then s.setNext (c.num.add s.next (c.num.ofInt (-(wrapPeriod : Int)))) else s

/-- The deadline advances by one `TIME_DELTA` (R123). -/
def advanceDeadline (c : Config) (s : State) : State :=
  s.setNext (c.num.add s.next c.timeDelta)

/-- The delay until the deadline, a signed integer (R125). -/
def rearmDelay (c : Config) (now : MaskedClock) (s : State) : Int :=
  c.num.roundInt s.next - now.toNat

/-- The rearm phase, `REARM` (R127). -/
def rearm (c : Config) (s : State) : State :=
  let now := maskClock s.clk
  let s := adjustWrap c now (readClock s)
  let s := advanceDeadline c s
  timerArm (rearmDelay c now s) (timerDisarm (s.setLast now))

/-- The phase after the visit of slot i: the next index, or the rearm after slot 15; the index does not
wrap (R22). -/
def phaseAfter (i : Pin) : Phase := if h : i.val + 1 < 16 then .scan ⟨i.val + 1, h⟩ else .rearm

/-- One phase of SEQ: from `SCAN(i)` the visit of slot i, from `REARM` the rearm and the return (R22,
R100). -/
def seqStep (c : Config) (s : State) : State :=
  match s.ph with
  | .idle => s
  | .scan i => (visitSlot i s).setPh (phaseAfter i)
  | .rearm => leaveTick (rearm c s)

/-- n phases of SEQ. -/
def seqRun (c : Config) : Nat → State → State
  | 0, s => s
  | n + 1, s => seqRun c n (seqStep c s)

/-- The phases of a whole tick: 16 visits and the rearm (R112). -/
def tickPhases : Nat := 17

/-- An accepted expiry: entry, and then SEQ runs until it is idle, as one transition (R46, R100). -/
def runTick (c : Config) (s : State) : State := seqRun c tickPhases (enterTick s)

/-- `TICK` on the platform `c`: an expiry that is not accepted is ignored (R100, R182). -/
def tickOn (c : Config) (s : State) : State := if expiryAccepted s then runTick c s else s

/-- `TICK` (R100). -/
def execTick (s : State) : Host.Outcome State Fault Refusal := .next (tickOn platform s)

end Sys2Proof.Machine
end

