-- ==== Sys2Proof/Machine/Dispatch.lean ====
section
/-! DEFINITION. One arm per constructor of `Instr`, each a direct call of its meaning. -/

namespace Sys2Proof.Machine

def exec (i : Instr) (s : State) : Host.Outcome State Fault Refusal :=
  match i with
  | .init p => Sys2Proof.Machine.execInit p s
  | .start p => Sys2Proof.Machine.execStart p s
  | .stop p => Sys2Proof.Machine.execStop p s
  | .setsp p v => Sys2Proof.Machine.execSetsp p v s
  | .getsp p => Sys2Proof.Machine.execGetsp p s
  | .tick => Sys2Proof.Machine.execTick s

end Sys2Proof.Machine
end

