-- ==== Sys2Proof/Decode.lean ====
section
/-! DEFINITION. The decoder, total on every word of both ports and rejecting by name (30_encoding.md
rules R61, R63, R65, R68), and after it the encoder written from the same table. -/

namespace Sys2Proof

/-- Why a port word carries no operation. -/
inductive DecodeError where
  /-- `op` is 0x0 or 0x6 to 0xF (R65). -/
  | reservedOp (op : BitVec 4)
  /-- `imm8` is not 0 in a command that takes no immediate (R65). -/
  | nonzeroImm (imm : BitVec 8)
  /-- The event input is 0: no expiry (R61). -/
  | noEvent
  deriving DecidableEq, Repr

/-- A command without immediate: legal only when `imm8` is 0 (R65). -/
def withoutImm (w : CommandWord) (i : Instr) : Except DecodeError Instr :=
  if Machine.immField w = 0 then .ok i else .error (.nonzeroImm (Machine.immField w))

/-- The decoding procedure of R68 for a command word. -/
def decodeCommand (w : CommandWord) : Except DecodeError Instr :=
  if Machine.opField w = 1 then withoutImm w (.init (Machine.pinField w))
  else if Machine.opField w = 2 then withoutImm w (.start (Machine.pinField w))
  else if Machine.opField w = 3 then withoutImm w (.stop (Machine.pinField w))
  else if Machine.opField w = 4 then .ok (.setsp (Machine.pinField w) (Machine.immField w))
  else if Machine.opField w = 5 then withoutImm w (.getsp (Machine.pinField w))
  else .error (.reservedOp (Machine.opField w))

/-- The event input: 1 is one `TICK`, 0 is no event (R61). -/
def decodeEvent (fire : BitVec 1) : Except DecodeError Instr :=
  if fire = 1 then .ok .tick else .error .noEvent

/-- The decoder over both ports. -/
def decode : PortWord → Except DecodeError Instr
  | .host w => decodeCommand w
  | .timer fire => decodeEvent fire

/-- The word an operation is presented as (R68; R61 for `TICK`). -/
def encode : Instr → PortWord
  | .init p => .host (Machine.packWord 1 p 0)
  | .start p => .host (Machine.packWord 2 p 0)
  | .stop p => .host (Machine.packWord 3 p 0)
  | .setsp p v => .host (Machine.packWord 4 p v)
  | .getsp p => .host (Machine.packWord 5 p 0)
  | .tick => .timer 1

/-- The port word that a row of the opcode table stands for: a row of one byte or less is the event
input, whose only bit is bit 0; any other row is a command word (log 17). -/
def portWordOf (nbits w : Nat) : PortWord :=
  if nbits ≤ 8 then .timer (BitVec.ofNat 1 w) else .host (BitVec.ofNat 16 w)

/-- The instruction the decoder reads from the table word `w` of `nbits` bits. -/
def decodeTableWord (nbits w : Nat) : Option Instr :=
  match decode (portWordOf nbits w) with
  | .ok i => some i
  | .error _ => none

end Sys2Proof
end

