-- ==== Sys2Proof/Machine/Ports.lean ====
section
/-! DEFINITION. What the block takes next: the acceptance of an expiry and of a command word, the arrival
of the next input, and reset, which abandons what is in progress (60_exceptions.md rules R181 to R183,
44_gpio_driver.md rule R165, 70_reset_and_hazards.md rule R210). -/

namespace Sys2Proof.Machine

/-- The next transition of the block. -/
inductive Fetched where
  /-- An instruction, to be run in the given state. -/
  | instr (i : Instr) (s : State)
  /-- A transition that runs no instruction, and the state it leaves. -/
  | other (s : State)
  deriving DecidableEq, Repr

/-- The answer to an illegal word: `ILLEGAL_COMMAND` and nothing else (R65, R177). -/
def illegalWord (s : State) : State := raise .illegalCommand s

/-- A presented command word is accepted and decoded (R68, R165). -/
def acceptCommand (w : CommandWord) (s : State) : Fetched :=
  match decode (.host w) with
  | .ok i => .instr i { s with cmd := none }
  | .error _ => .other (illegalWord { s with cmd := none })

/-- A raised expiry is taken from the port and decoded (R61, R181). -/
def acceptExpiry (s : State) : Fetched :=
  match decode (.timer 1) with
  | .ok i => .instr i { s with fire := false }
  | .error _ => .other { s with fire := false }

/-- The next input of the environment reaches the ports (log 7). -/
def arrive (i : Input) (s : State) : State :=
  { s with cmd := i.cmd, fire := i.fire, clk := i.clk, rst := i.rst }

/-- The next transition while `rst_n` is high. SEQ inside a tick finishes it first (R46; no run reaches
such a state, R22; log 15). Then a raised expiry comes before a presented command (R183), and both
before the next input. With nothing pending the block stays as it is. -/
def takeNext (c : Config) (s : State) : Fetched :=
  match s.ph with
  | .idle =>
    if s.fire then acceptExpiry s
    else
      match s.cmd with
      | some w => acceptCommand w s
      | none =>
        match s.inputs with
        | [] => .other s
        | i :: rest => .other (arrive i { s with inputs := rest })
  | _ => .other (seqRun c tickPhases s)

/-- A transition carried out: the instruction that is taken, or what happens where none is. -/
def perform : Fetched → Host.Outcome State Fault Refusal
  | .instr i s => exec i s
  | .other s => .next s

/-- All that the block has emitted once a transition that began in state s is complete. -/
def emittedBy (s : State) : Host.Outcome State Fault Refusal → List Event
  | .next t => t.events
  | .fault _ => s.events
  | .refused _ => s.events

/-- Reset: every register at its reset value, no call issued (R25, R210; log 11). -/
def resetBlock (c : Config) (s : State) : State :=
  State.afterReset c (s.resets + 1) s.clk s.inputs s.events

/-- Reset while a tick or a command is in progress, or about to be: the operation is abandoned after its
first k calls, which the outside has seen, and nothing else of it remains (R210). -/
def abandonAfter (c : Config) (k : Nat) (s : State) : State :=
  resetBlock c
    { s with events := (emittedBy s (perform (takeNext c { s with rst := none }))).take (s.events.length + k) }

/-- The next transition: reset goes before everything (R210). -/
def fetch (c : Config) (s : State) : Fetched :=
  match s.rst with
  | some k => .other (abandonAfter c k s)
  | none => takeNext c s

/-- The state in which the next transition runs exactly the operation of a port word: no reset, SEQ idle, the
word alone at its port, and for an expiry the one-shot armed, as its acceptance needs (log 17). -/
def present (pw : PortWord) (s : State) : State :=
  match pw with
  | .host w => { s with rst := none, ph := .idle, fire := false, cmd := some w }
  | .timer fire =>
    { s with rst := none, ph := .idle, fire := decide (fire = 1), armed := true }

end Sys2Proof.Machine
end

