-- ==== Sys2Proof/Machine/Step.lean ====
section
/-! DEFINITION. One step of the machine: one transition of the block, or the arrival of the next input
(20_memory.md rules R46 and R48). -/

namespace Sys2Proof.Machine

/-- One transition: the instruction that is taken, or what `fetch` does where none is. -/
def step (s : State) : Host.Outcome State Fault Refusal := perform (fetch platform s)

/-- The instruction of a table word placed at its port, so that the next step runs it (log 17). -/
def State.withFetchWord (s : State) (nbits w : Nat) : State := present (portWordOf nbits w) s

end Sys2Proof.Machine
end

