-- ==== Sys2Proof/Machine/Observe.lean ====
section
/-! DEFINITION. What can be seen of the block from outside, as functions of its state: the pads, the
ready output, the bits of a response and of the phase register, the lifecycle of a channel, and the
levels driven on a pin. -/

namespace Sys2Proof.Machine

/-- The level of the pad of pin p, and none while the block does not drive it (R162). -/
def pad (s : State) (p : Pin) : Option Bool :=
  if readPin s.dir p then some (readPin s.lvl p) else none

/-- `CMD_READY`: a presented command is accepted next: SEQ is idle and no expiry is pending (R164, R165,
R183; for an expiry while `ARMED = 0` log 14). What it shows while `rst_n` is asserted no rule says: 0 is
a DESIGN CHOICE (log 18), unsafe. -/
def cmdReady (s : State) : Bool := decide (s.ph = .idle) && !s.fire && s.rst.isNone

/-- The code of a status (R62). -/
def Status.code : Status → BitVec 2
  | .ok => 0
  | .gpioConfigFailed => 1
  | .illegalCommand => 2

/-- The 10 bits of the port `RSP`: status in bits 9:8, data in bits 7:0 (R62). -/
def Response.word (r : Response) : BitVec 10 := r.status.code ++ r.data

/-- The value of the 5-bit register `PH` (R22). -/
def Phase.code : Phase → BitVec 5
  | .idle => 31
  | .scan i => (BitVec.ofFin (w := 4) i).setWidth 5
  | .rearm => 16

/-- The lifecycle state of a channel (R147). -/
inductive Lifecycle where
  | unconfigured
  | running
  | stopped
  /-- Outside the source's diagram: `START` on a pin never configured (R144 (c)). -/
  | registeredUnconfigured
  deriving DecidableEq, Repr

/-- The lifecycle state of channel p, from `REG[p]` and `DIR[p]` (R147). -/
def lifecycle (s : State) (p : Pin) : Lifecycle :=
  match readPin s.reg p, readPin s.dir p with
  | false, false => .unconfigured
  | true, true => .running
  | false, true => .stopped
  | true, false => .registeredUnconfigured

/-- The level an event drives on pin p, if it drives pin p (R103). -/
def Event.level? (p : Pin) : Event → Option Bool
  | .gpioSetLevel q l => if q = p then some l else none
  | _ => none

/-- The levels driven on pin p by a list of events, in order (R103, R148). -/
def levelsOf (p : Pin) (es : List Event) : List Bool := es.filterMap (Event.level? p)

/-- An event is a response to HOST (R62). -/
def Event.isResponse : Event → Bool
  | .respond _ => true
  | _ => false

end Sys2Proof.Machine
end

