-- ==== Sys2Proof/WellFormed.lean ====
section
/-! DEFINITION. Which words are legal (30_encoding.md rule R65), one check for each way a word can be
illegal. The operands of `Instr` are in range by their types (R41, D27), so every term of `Instr` is
well-formed; the checks are on the words. -/

namespace Sys2Proof.WellFormed

/-- `op` names an operation: 0x1 to 0x5 (R63, R65). -/
def opDefined (w : CommandWord) : Bool :=
  Machine.opField w == 1 || Machine.opField w == 2 || Machine.opField w == 3 ||
    Machine.opField w == 4 || Machine.opField w == 5

/-- `imm8` is 0 unless the word is a `SETSP` (R60, R65). -/
def immAllowed (w : CommandWord) : Bool :=
  Machine.opField w == 4 || Machine.immField w == 0

/-- A command word that R65 does not call illegal. -/
def legalWord (w : CommandWord) : Bool := opDefined w && immAllowed w

/-- A word of either port that carries an operation: a legal command word, or the event at 1 (R61). -/
def legal : PortWord → Bool
  | .host w => legalWord w
  | .timer fire => fire == 1

/-- An operation's pin is one of the 16 slots; no term of `Instr` fails it (R41). -/
def instr : Instr → Bool
  | .init p => decide (p.val < nslot)
  | .start p => decide (p.val < nslot)
  | .stop p => decide (p.val < nslot)
  | .setsp p v => decide (p.val < nslot) && decide (v.toNat < 256)
  | .getsp p => decide (p.val < nslot)
  | .tick => true

end Sys2Proof.WellFormed
end

