-- ==== Sys2Proof/Safety.lean ====
section
/-! DEFINITION. The terms in which claims about runs are made: the invariant of the block between two
transitions, runs, what leaves a channel alone, agreement of two states on one channel, and runs of
ticks. -/

namespace Sys2Proof.Safety

open Sys2Proof.Machine

/-- A deadline is a finite number of magnitude at most 2^84 time units. Near 2^84 neighbouring binary64
values lie so far apart that adding a `TIME_DELTA` or a wrap period leads no further. -/
def deadlineBounded (x : NUM) : Prop :=
  Binary64.isFinite x = true ∧ Binary64.magnitude x ≤ 2 ^ 84 * Binary64.oneUnit

/-- What holds of the block between any two transitions. -/
structure Inv (s : State) : Prop where
  /-- `ACC[p][15:8] = 0` (R13). -/
  accMasked : ∀ p, (readPin s.acc p).toNat < 256
  /-- SEQ is idle (R22). -/
  seqIdle : s.ph = .idle
  /-- The one-shot is armed exactly when the scheduler has been started (R16, R181, R211). -/
  armedWhenRunning : s.armed = s.run
  /-- Only a pin the GPIO facility accepts is ever an output, and the success that made it one started
  the scheduler (R140, R160). -/
  outputsConfigured : ∀ p, readPin s.dir p = true → platform.pinOk p = true ∧ s.run = true
  /-- Before the first arming the timing registers hold their reset values (R18, R19). -/
  timingAtRest : s.run = false → s.last = 0 ∧ s.next = 0
  /-- `NEXT` is a finite number (R124). -/
  deadlineFinite : deadlineBounded s.next

/-- A step leads from s to t. -/
def StepsTo (s t : State) : Prop := step s = .next t

/-- k steps lead from s to t. -/
def RunsTo (k : Nat) (s t : State) : Prop := Host.Core.run core k s = .next t

/-- A command word that sets the setpoint or creates the channel of pin p afresh: `INIT p`, `SETSP p`
(R15). -/
def wordChangesChannel (p : Pin) (w : CommandWord) : Bool :=
  match decode (.host w) with
  | .ok (.init q) => decide (q = p)
  | .ok (.setsp q _) => decide (q = p)
  | _ => false

/-- An input that changes the setpoint or the accumulator of pin p otherwise than by a tick: such a
command, or reset. -/
def inputChangesChannel (p : Pin) (i : Input) : Bool :=
  i.rst.isSome || i.cmd.any (wordChangesChannel p)

/-- Neither what is pending nor what is to come changes channel p otherwise than by ticks; it may be
stopped and started, and anything may happen to other channels. -/
def channelLeftAlone (p : Pin) (s : State) : Prop :=
  s.rst = none ∧ s.cmd.any (wordChangesChannel p) = false ∧ s.inputs.any (inputChangesChannel p) = false

/-- No reset is asserted, and none is among the inputs to come. -/
def noResetAhead (s : State) : Prop := s.rst = none ∧ ∀ i ∈ s.inputs, i.rst = none

/-- Two states agree on all that channel p and the course of the block depend on: the registers of pin
p, RUN, ARMED, PH, what is pending and to come, and the levels driven on pin p so far. The other
channels, the timing registers and the clock port may differ. -/
structure AgreeOn (p : Pin) (s t : State) : Prop where
  reg : readPin s.reg p = readPin t.reg p
  sp : readPin s.sp p = readPin t.sp p
  acc : readPin s.acc p = readPin t.acc p
  dir : readPin s.dir p = readPin t.dir p
  lvl : readPin s.lvl p = readPin t.lvl p
  run : s.run = t.run
  armed : s.armed = t.armed
  ph : s.ph = t.ph
  cmd : s.cmd = t.cmd
  fire : s.fire = t.fire
  rst : s.rst = t.rst
  inputs : s.inputs = t.inputs
  resets : s.resets = t.resets
  levels : levelsOf p s.events = levelsOf p t.events

/-- The `gpio_set_level` call of slot i in a tick that begins in state s, if the slot is occupied. -/
def driveOf (s : State) (i : Pin) : Option Event :=
  if readPin s.reg i then
    some (.gpioSetLevel i (carry (slotSum (readPin s.acc i) (readPin s.sp i))))
  else none

/-- One accepted expiry whose clock reading samples `clk` (R61). -/
def tickAt (c : Config) (clk : ClockSample) (s : State) : State := tickOn c { s with clk := clk }

/-- Consecutive ticks with the given clock samples (R70). -/
def ticksAt (c : Config) : List ClockSample → State → State
  | [], s => s
  | clk :: rest, s => ticksAt c rest (tickAt c clk s)

/-- How many of the readings follow a wrap, counted from the reading `last`: W(k) of R129. -/
def wrapCount : List ClockSample → MaskedClock → Nat
  | [], _ => 0
  | clk :: rest, last =>
    (if wrapped (maskClock clk) last then 1 else 0) + wrapCount rest (maskClock clk)

/-- A sum of `NUM` without rounding error. -/
def sumExact (c : Config) (a b : NUM) : Prop :=
  Binary64.isFinite (c.num.add a b) = true ∧
    Binary64.scaled (c.num.add a b) = Binary64.scaled a + Binary64.scaled b

/-- The deadline after the wrap adjustment of a tick whose masked reading is `now` (R122). -/
def adjustedDeadline (c : Config) (now : MaskedClock) (s : State) : NUM :=
  if wrapped now s.last then c.num.add s.next (c.num.ofInt (-(wrapPeriod : Int))) else s.next

/-- The sums of the rearm of a tick with this clock sample are exact (R129). -/
def tickExact (c : Config) (clk : ClockSample) (s : State) : Prop :=
  (wrapped (maskClock clk) s.last = true → sumExact c s.next (c.num.ofInt (-(wrapPeriod : Int)))) ∧
    sumExact c (adjustedDeadline c (maskClock clk) s) c.timeDelta

/-- All sums of the rearms of consecutive ticks are exact (R129). -/
def ticksExact (c : Config) : List ClockSample → State → Prop
  | [], _ => True
  | clk :: rest, s => tickExact c clk s ∧ ticksExact c rest (tickAt c clk s)

end Sys2Proof.Safety
end

