-- ==== Sys2Proof/Certificates/Slice0/Obligations.lean ====
section
/-! DEFINITION. The statements for the provers. OBLIGATIONS.json says which rules of spec/ each of them
formalises. -/

open Sys2Proof Sys2Proof.Machine Sys2Proof.Safety

/-! ### Words: fields, decoding, encoding -/

/-- R60, R64: bit 0 is the least significant, `op = w[15:12]`, `p = w[11:8]`, `imm8 = w[7:0]`. -/
def Obligations.CommandFieldsAreTheNamedBits : Prop :=
  ∀ w : CommandWord,
    (opField w).toNat = w.toNat / 4096 ∧
    (pinField w).val = w.toNat / 256 % 16 ∧
    (immField w).toNat = w.toNat % 256

/-- R63, R64, R68: words written out from the encoding table decode to their operations, and words that
R65 calls illegal do not. -/
def Obligations.WrittenOutWordsDecode : Prop :=
  decode (.host 0x1500) = .ok (.init 5) ∧
  decode (.host 0x2F00) = .ok (.start 15) ∧
  decode (.host 0x3000) = .ok (.stop 0) ∧
  decode (.host 0x45FF) = .ok (.setsp 5 255) ∧
  decode (.host 0x5500) = .ok (.getsp 5) ∧
  decode (.timer 1) = .ok .tick ∧
  decode (.host 0x0000) = .error (.reservedOp 0) ∧
  decode (.host 0x1501) = .error (.nonzeroImm 1)

/-- R68: the decoding procedure, and the encoding that inverts it, in the arithmetic of the word's value;
encode then decode is the identity, and decode then encode is the identity on legal words. -/
def Obligations.DecodingProcedureAndItsInverse : Prop :=
  (∀ w : CommandWord,
    (decode (.host w)).toOption =
      (let op := w.toNat / 4096
       let p : Pin := Fin.ofNat 16 (w.toNat / 256)
       let imm := w.toNat % 256
       if op = 1 ∧ imm = 0 then some (.init p)
       else if op = 2 ∧ imm = 0 then some (.start p)
       else if op = 3 ∧ imm = 0 then some (.stop p)
       else if op = 4 then some (.setsp p (BitVec.ofNat 8 imm))
       else if op = 5 ∧ imm = 0 then some (.getsp p)
       else none)) ∧
  (∀ (p : Pin) (v : Setpoint),
    encode (.init p) = .host (BitVec.ofNat 16 (0x1000 + 256 * p.val)) ∧
    encode (.start p) = .host (BitVec.ofNat 16 (0x2000 + 256 * p.val)) ∧
    encode (.stop p) = .host (BitVec.ofNat 16 (0x3000 + 256 * p.val)) ∧
    encode (.setsp p v) = .host (BitVec.ofNat 16 (0x4000 + 256 * p.val + v.toNat)) ∧
    encode (.getsp p) = .host (BitVec.ofNat 16 (0x5000 + 256 * p.val))) ∧
  (∀ i : Instr, decode (encode i) = .ok i) ∧
  (∀ (w : PortWord) (i : Instr), decode w = .ok i → encode i = w)

/-- R68: for every operation, with every operand, decoding its encoding gives it back. -/
def Obligations.DecodeOfEncodeIsTheInstruction : Prop :=
  ∀ i : Instr, decode (encode i) = .ok i

/-- R63: a word selects the row of the opcode table whose match it has under the row's mask, no other
row, and the event input at 1 is `TICK`. -/
def Obligations.MaskAndMatchSelectTheRow : Prop :=
  (∀ w : CommandWord,
    (w &&& 0xF0FF = 0x1000 ↔ ∃ p, decode (.host w) = .ok (.init p)) ∧
    (w &&& 0xF0FF = 0x2000 ↔ ∃ p, decode (.host w) = .ok (.start p)) ∧
    (w &&& 0xF0FF = 0x3000 ↔ ∃ p, decode (.host w) = .ok (.stop p)) ∧
    (w &&& 0xF000 = 0x4000 ↔ ∃ p v, decode (.host w) = .ok (.setsp p v)) ∧
    (w &&& 0xF0FF = 0x5000 ↔ ∃ p, decode (.host w) = .ok (.getsp p)) ∧
    decode (.host w) ≠ .ok .tick) ∧
  (∀ fire : BitVec 1, fire = 1 ↔ decode (.timer fire) = .ok .tick)

/-- R65: exactly the legal words decode, and a command word is illegal when its `op` is 0x0 or 0x6 to
0xF, or when its `op` is not 0x4 and its `imm8` is not 0. -/
def Obligations.ExactlyTheLegalWordsDecode : Prop :=
  (∀ w : PortWord, (∃ i, decode w = .ok i) ↔ WellFormed.legal w = true) ∧
  (∀ w : CommandWord, WellFormed.legalWord w = false ↔
    (w.toNat / 4096 = 0 ∨ 6 ≤ w.toNat / 4096 ∨ w.toNat / 4096 ≠ 4 ∧ w.toNat % 256 ≠ 0))

/-- R62, R176, R177, U10: a response is the status code in bits 9:8 above the data in bits 7:0; the
codes are 0, 1 and 2, so code 3 is never produced. -/
def Obligations.ResponseBits : Prop :=
  ∀ d : BitVec 8,
    (Response.word ⟨.ok, d⟩).toNat = d.toNat ∧
    (Response.word ⟨.gpioConfigFailed, d⟩).toNat = 256 + d.toNat ∧
    (Response.word ⟨.illegalCommand, d⟩).toNat = 512 + d.toNat ∧
    ∀ r : Response, (r.word.toNat / 256 ≠ 3)

/-! ### One step -/

/-- R68, R165: `rst_n` high, SEQ idle, no expiry pending, a legal word presented: the step takes the word
from the port and runs the instruction it decodes to. -/
def Obligations.StepRunsThePresentedInstruction : Prop :=
  ∀ (s : State) (w : CommandWord) (i : Instr),
    s.rst = none → s.ph = .idle → s.fire = false → s.cmd = some w → decode (.host w) = .ok i →
    step s = exec i { s with cmd := none }

/-- R61, R183: `rst_n` high, SEQ idle and an expiry raised: the step takes the event from the port and runs
`TICK`, a command presented at the same moment waits. R181 and R183 say this of an expiry while
`ARMED = 1`. That an expiry while `ARMED = 0`, which `TICK` ignores (R182), is taken in a step of its own
too, and that a command waits for it, is the model's choice (notes/assumptions/14.md). -/
def Obligations.StepTakesTheExpiryBeforeACommand : Prop :=
  ∀ s : State, s.rst = none → s.ph = .idle → s.fire = true →
    step s = exec .tick { s with fire := false } ∧ ∃ t, step s = .next t ∧ t.cmd = s.cmd

/-- R65, R177: an illegal word is taken from the port and answered with `ILLEGAL_COMMAND`, status code 2,
and data 0; nothing else changes and no call is made. -/
def Obligations.StepAnswersAnIllegalWord : Prop :=
  (∀ (s : State) (w : CommandWord),
    s.rst = none → s.ph = .idle → s.fire = false → s.cmd = some w →
    WellFormed.legalWord w = false →
    step s = .next { s with
      cmd := none
      events := s.events ++ [.respond { status := .illegalCommand, data := 0 }] }) ∧
  (Response.word { status := .illegalCommand, data := 0 }).toNat = 2 * 256

/-- The model's own arrangement of inputs (notes/assumptions/7.md): with nothing pending, the next input
reaches the ports and no register changes; without a further input the block stays as it is. -/
def Obligations.StepLetsTheNextInputArrive : Prop :=
  ∀ s : State, s.rst = none → s.ph = .idle → s.fire = false → s.cmd = none →
    (s.inputs = [] → step s = .next s) ∧
    (∀ i rest, s.inputs = i :: rest →
      step s = .next { s with
        cmd := i.cmd, fire := i.fire, clk := i.clk, rst := i.rst, inputs := rest })

/-- R25, R210: reset, in whatever state it finds the block, puts every register at its reset value and leaves
SEQ idle. That the latches are drawn anew, that the pending command and expiry are dropped, and that
the clock port and the inputs to come stay, is the model's choice (notes/assumptions/5.md and 11.md). -/
def Obligations.ResetInputRestoresTheRegisters : Prop :=
  ∀ (s : State) (k : Nat), s.rst = some k →
    ∃ t, step s = .next t ∧
      (∀ p, readPin t.reg p = false ∧ readPin t.sp p = 0 ∧ readPin t.acc p = 0 ∧
        readPin t.dir p = false ∧ readPin t.lvl p = platform.lvlReset (s.resets + 1) p) ∧
      t.run = false ∧ t.last = 0 ∧ t.next = 0 ∧ t.ph = .idle ∧ t.armed = false ∧
      t.cmd = none ∧ t.fire = false ∧ t.rst = none ∧
      t.clk = s.clk ∧ t.inputs = s.inputs ∧ t.resets = s.resets + 1

/-- R210: reset abandons the tick or the command in progress and issues no call of its own: the new events
are the first of those that the transition would have emitted without the reset. That the place of the
cut is counted in calls is the model's choice (notes/assumptions/11.md). -/
def Obligations.ResetAbandonsTheOperationInProgress : Prop :=
  ∀ (s : State) (k : Nat), s.rst = some k →
    ∃ t u new, step s = .next t ∧ step { s with rst := none } = .next u ∧
      u.events = s.events ++ new ∧ t.events = s.events ++ new.take k

/-- R25: the reset values of the registers, `LVL` being the unspecified `LVL_RESET`. -/
def Obligations.ResetValuesOfTheRegisters : Prop :=
  (∀ p, readPin State.reset.reg p = false ∧ readPin State.reset.sp p = 0 ∧
    readPin State.reset.acc p = 0 ∧ readPin State.reset.dir p = false ∧
    readPin State.reset.lvl p = platform.lvlReset 0 p) ∧
  State.reset.run = false ∧ State.reset.last = 0 ∧ State.reset.next = 0 ∧
  State.reset.ph = .idle ∧ State.reset.armed = false

/-- R164, R165, R225: while `rst_n` is high, a step takes the presented command from the port exactly when
`CMD_READY` is 1. `CMD_READY` is 0 inside a tick (R164) and beside an expiry that is accepted (R183).
That it is 0 also beside an expiry while `ARMED = 0`, and that a state inside a tick finishes the tick
with the command still waiting, is the model's choice (notes/assumptions/14.md and 15.md). Nothing is said
of `CMD_READY` while `rst_n` is asserted, which the spec leaves open (notes/assumptions/18.md). -/
def Obligations.CommandIsTakenExactlyWhenReady : Prop :=
  ∀ (s t : State) (w : CommandWord), s.rst = none → s.cmd = some w → step s = .next t →
    (t.cmd = none ↔ cmdReady s = true)

/-- R175, R179: no state of the block and no input makes a step fault or refuse. -/
def Obligations.EveryStepGivesANextState : Prop :=
  ∀ s : State, ∃ t, step s = .next t

/-! ### SETSP and GETSP -/

/-- R84: `SETSP p, v` writes `SP[p]`, answers OK with data 0, and changes nothing else. -/
def Obligations.SetspWritesTheSetpointOnly : Prop :=
  ∀ (p : Pin) (v : Setpoint) (s : State),
    exec (.setsp p v) s = .next { s with
      sp := writePin s.sp p v
      events := s.events ++ [.respond { status := .ok, data := 0 }] }

/-- R85: `GETSP p` answers OK with `SP[p]` and changes nothing. -/
def Obligations.GetspAnswersTheSetpoint : Prop :=
  ∀ (p : Pin) (s : State),
    exec (.getsp p) s = .next { s with
      events := s.events ++ [.respond { status := .ok, data := readPin s.sp p }] }

/-- R84, R85: after `SETSP p, v` a `GETSP p` answers v, and a `GETSP` of another pin what it answered
before. -/
def Obligations.GetspReadsWhatSetspWrote : Prop :=
  ∀ (p q : Pin) (v : Setpoint) (s : State), ∃ t u,
    exec (.setsp p v) s = .next t ∧ exec (.getsp q) t = .next u ∧
    u.events.getLast? =
      some (.respond { status := .ok, data := if q = p then v else readPin s.sp q })

/-! ### INIT, START, STOP -/

/-- R144: `START p` sets `REG[p]`, answers OK with data 0, and changes nothing else. -/
def Obligations.StartRegistersTheChannelOnly : Prop :=
  ∀ (p : Pin) (s : State),
    exec (.start p) s = .next { s with
      reg := writePin s.reg p true
      events := s.events ++ [.respond { status := .ok, data := 0 }] }

/-- R145: `STOP p` clears `REG[p]`, answers OK with data 0, and changes nothing else: no level is
driven, the pad keeps what it shows. -/
def Obligations.StopUnregistersTheChannelOnly : Prop :=
  ∀ (p : Pin) (s : State), ∃ t,
    exec (.stop p) s = .next t ∧
    t = { s with
      reg := writePin s.reg p false
      events := s.events ++ [.respond { status := .ok, data := 0 }] } ∧
    ∀ q, pad t q = pad s q

/-- R146: `STOP` twice, or on an empty slot, leaves every register as it was and answers OK. -/
def Obligations.StopIsIdempotent : Prop :=
  (∀ (p : Pin) (s : State), readPin s.reg p = false →
    exec (.stop p) s = .next { s with
      events := s.events ++ [.respond { status := .ok, data := 0 }] }) ∧
  (∀ (p : Pin) (s : State), ∃ t, exec (.stop p) s = .next t ∧
    exec (.stop p) t = .next { t with
      events := t.events ++ [.respond { status := .ok, data := 0 }] }) ∧
  (∀ p : Pin, readPin State.reset.reg p = false)

/-- R140, R141, R142: what `INIT p` does, whether the GPIO facility refuses the pin, or accepts it with
the scheduler running, or accepts it as the first success, which arms the timer for one second. -/
def Obligations.InitEffect : Prop :=
  ∀ (p : Pin) (s : State),
    exec (.init p) s = .next
      (if platform.pinOk p = false then
        { s with
          events := s.events ++ [.gpioConfigure p platform.pullMode true false,
            .respond { status := .gpioConfigFailed, data := 0 }] }
      else if s.run = true then
        { s with
          dir := writePin s.dir p true
          sp := writePin s.sp p 0
          acc := writePin s.acc p 0
          reg := writePin s.reg p true
          events := s.events ++ [.gpioConfigure p platform.pullMode true true,
            .respond { status := .ok, data := BitVec.ofNat 8 p.val }] }
      else
        { s with
          dir := writePin s.dir p true
          sp := writePin s.sp p 0
          acc := writePin s.acc p 0
          reg := writePin s.reg p true
          run := true
          last := BitVec.ofNat 31 s.clk.toNat
          next := Binary64.ofInt (s.clk.toNat % 2147483648 + platform.ups)
          armed := true
          events := s.events ++ [.gpioConfigure p platform.pullMode true true, .readClock s.clk,
            .timerDisarm, .timerArm (BitVec.ofNat 32 platform.ups),
            .respond { status := .ok, data := BitVec.ofNat 8 p.val }] })

/-- R142: on every platform that refuses the pin, `INIT p` changes no register, in particular does not
start the scheduler, and answers GPIO_CONFIG_FAILED with data 0. -/
def Obligations.RefusedInitChangesNoRegister : Prop :=
  ∀ (c : Config) (p : Pin) (s : State), c.pinOk p = false →
    initOn c p s = { s with
      events := s.events ++ [.gpioConfigure p c.pullMode true false,
        .respond { status := .gpioConfigFailed, data := 0 }] }

/-- R141: on every platform, the first successful `INIT` reads the clock, sets `LAST` to the masked
reading and `NEXT` to one second later, arms the timer for one second and sets `RUN`; a later one
touches none of these and makes no call but the configuration. -/
def Obligations.OnlyTheFirstSuccessfulInitArmsTheTimer : Prop :=
  ∀ (c : Config) (p : Pin) (s : State), c.pinOk p = true →
    (s.run = false → ∃ t, t = initOn c p s ∧
      t.last.toNat = s.clk.toNat % 2147483648 ∧
      t.next = c.num.ofInt (t.last.toNat + c.ups) ∧ t.run = true ∧ t.armed = true ∧
      t.events = s.events ++ [.gpioConfigure p c.pullMode true true, .readClock s.clk,
        .timerDisarm, .timerArm (BitVec.ofNat 32 c.ups),
        .respond { status := .ok, data := BitVec.ofNat 8 p.val }]) ∧
    (s.run = true → ∃ t, t = initOn c p s ∧
      t.last = s.last ∧ t.next = s.next ∧ t.run = true ∧ t.armed = s.armed ∧
      t.events = s.events ++ [.gpioConfigure p c.pullMode true true,
        .respond { status := .ok, data := BitVec.ofNat 8 p.val }])

/-- R143, R215, R219: on every platform that accepts the pin, `INIT p` configures the pin and leaves
channel p registered, an output, with setpoint and accumulator 0, whatever it held before; other channels
keep theirs, and no level is driven. -/
def Obligations.SuccessfulInitCreatesTheChannelAfresh : Prop :=
  ∀ (c : Config) (p : Pin) (s : State), c.pinOk p = true →
    (∃ rest, (initOn c p s).events = s.events ++ .gpioConfigure p c.pullMode true true :: rest) ∧
    readPin (initOn c p s).reg p = true ∧ readPin (initOn c p s).dir p = true ∧
    readPin (initOn c p s).sp p = 0 ∧ readPin (initOn c p s).acc p = 0 ∧
    (initOn c p s).lvl = s.lvl ∧
    ∀ q, q ≠ p → lifecycle (initOn c p s) q = lifecycle s q ∧
      readPin (initOn c p s).sp q = readPin s.sp q ∧ readPin (initOn c p s).acc q = readPin s.acc q

/-- R147: the lifecycle of a channel: reset makes it unconfigured; `INIT` that succeeds leads to running
from every state and clears the context, one that fails leaves it; `START` and `STOP` move it; `SETSP`,
`GETSP` and `TICK` never do; no instruction moves another channel's. -/
def Obligations.LifecycleTransitions : Prop :=
  (∀ p, lifecycle State.reset p = .unconfigured) ∧
  ∀ (p q : Pin) (v : Setpoint) (s t : State),
    (exec (.init p) s = .next t →
      if platform.pinOk p then
        lifecycle t p = .running ∧ readPin t.sp p = 0 ∧ readPin t.acc p = 0
      else lifecycle t p = lifecycle s p) ∧
    (exec (.start p) s = .next t → lifecycle t p =
      (if readPin s.dir p then .running else .registeredUnconfigured)) ∧
    (exec (.stop p) s = .next t → lifecycle t p =
      (if readPin s.dir p then .stopped else .unconfigured)) ∧
    (exec (.setsp p v) s = .next t → lifecycle t q = lifecycle s q) ∧
    (exec (.getsp p) s = .next t → lifecycle t q = lifecycle s q) ∧
    (exec .tick s = .next t → lifecycle t q = lifecycle s q) ∧
    (q ≠ p → exec (.start p) s = .next t ∨ exec (.stop p) s = .next t ∨ exec (.init p) s = .next t →
      lifecycle t q = lifecycle s q)

/-! ### The modulator -/

/-- R105: the three steps of an occupied slot are `mod_step` of the accumulator's low 8 bits and the
setpoint, whose level is 1 exactly when the sum reaches 256 and whose accumulator is the sum modulo
256. -/
def Obligations.SlotIsTheModulatorStep : Prop :=
  (∀ a s : BitVec 8,
    (modStep a s).1 = decide (256 ≤ a.toNat + s.toNat) ∧
    (modStep a s).2.toNat = (a.toNat + s.toNat) % 256) ∧
  (∀ (i : Pin) (s : State), (readPin s.acc i).toNat < 256 →
    slot i s =
      (let r := modStep ((readPin s.acc i).setWidth 8) (readPin s.sp i)
       { s with
         lvl := writePin s.lvl i r.1
         acc := writePin s.acc i (r.2.setWidth 16)
         events := s.events ++ [.gpioSetLevel i r.1] }))

/-- R107: the closed form of a channel that stays registered with constant setpoint: accumulator, level
and number of high ticks after n ticks, the return of the accumulator after 256, and exactly s high
ticks in any 256 consecutive ones. -/
def Obligations.DutyTheorem : Prop :=
  ∀ (a s : BitVec 8) (n : Nat),
    (modAcc a s n).toNat = (a.toNat + n * s.toNat) % 256 ∧
    modLevel a s (n + 1) = decide (256 ≤ (modAcc a s n).toNat + s.toNat) ∧
    (modLevels a s n).count true = (a.toNat + n * s.toNat) / 256 ∧
    modAcc a s (n + 256) = modAcc a s n ∧
    ((modLevels a s (n + 256)).drop n).count true = s.toNat

/-- R107 (c): the accumulator returns to its value exactly at the multiples of `256 / gcd(s, 256)`
ticks; for s = 0 that is every tick. -/
def Obligations.AccumulatorPeriod : Prop :=
  ∀ (a s : BitVec 8) (k : Nat), modAcc a s k = a ↔ 256 / Nat.gcd s.toNat 256 ∣ k

/-- R108: the setpoints 0, 1, 128 and 255 from accumulator 0; setpoint 0 never drives high from any
accumulator, and no setpoint drives high for 256 ticks on end. -/
def Obligations.ModulatorCornerCases : Prop :=
  (∀ (a : BitVec 8) (n : Nat), modLevel a 0 n = false ∧ modAcc a 0 n = a) ∧
  (∀ n, 1 ≤ n → modLevel 0 1 n = decide (n % 256 = 0) ∧ (modAcc 0 1 n).toNat = n % 256) ∧
  (∀ n, 1 ≤ n → modLevel 0 128 n = decide (n % 2 = 0) ∧ (modAcc 0 128 n).toNat = 128 * (n % 2)) ∧
  (∀ n, 1 ≤ n → modLevel 0 255 n = decide (n % 256 ≠ 1) ∧
    (modAcc 0 255 n).toNat = (256 - n % 256) % 256) ∧
  (∀ a s : BitVec 8, ∃ n, 1 ≤ n ∧ n ≤ 256 ∧ modLevel a s n = false)

/-- R109: two consecutive high ticks lie `floor(256/s)` or `ceil(256/s)` ticks apart; for s of 128 and
more the same holds of two consecutive low ticks with 256 - s in the place of s. -/
def Obligations.HighTicksAreEvenlySpread : Prop :=
  ∀ (a s : BitVec 8) (m n : Nat), 1 ≤ m → m < n →
    (0 < s.toNat → modLevel a s m = true → modLevel a s n = true →
      (∀ k, m < k → k < n → modLevel a s k = false) →
      n - m = 256 / s.toNat ∨ n - m = (256 + s.toNat - 1) / s.toNat) ∧
    (128 ≤ s.toNat → modLevel a s m = false → modLevel a s n = false →
      (∀ k, m < k → k < n → modLevel a s k = true) →
      n - m = 256 / (256 - s.toNat) ∨
        n - m = (256 + (256 - s.toNat) - 1) / (256 - s.toNat))

/-! ### TICK -/

/-- R100 to R106, R120 to R128, R181, R185: the whole effect of an accepted expiry. Every occupied slot
adds its setpoint to its accumulator, drives bit 8 of the sum and keeps the low 8 bits; then the clock
is read, the deadline adjusted for a wrap and advanced by one period, and the timer rearmed for the
rounded deadline less the reading, be it negative or not. Everything else is unchanged; the calls are
recorded in this order. -/
def Obligations.TickEffect : Prop :=
  ∀ s : State, s.armed = true → s.ph = .idle →
    exec .tick s = .next
      (let level := fun p : Pin =>
        decide (((readPin s.acc p).toNat + (readPin s.sp p).toNat) / 256 % 2 = 1)
       let now := s.clk.toNat % 2147483648
       let adjusted :=
        if now < s.last.toNat then Binary64.add s.next (Binary64.ofInt (-2147483648)) else s.next
       let deadline := Binary64.add adjusted platform.timeDelta
       { s with
         acc := Vector.ofFn fun p => if readPin s.reg p then
           BitVec.ofNat 16 (((readPin s.acc p).toNat + (readPin s.sp p).toNat) % 256)
           else readPin s.acc p
         lvl := Vector.ofFn fun p => if readPin s.reg p then level p else readPin s.lvl p
         last := BitVec.ofNat 31 now
         next := deadline
         armed := true
         ph := .idle
         events := s.events ++
           ((List.finRange 16).filter fun p => readPin s.reg p).map
             (fun p => .gpioSetLevel p (level p)) ++
           [.readClock s.clk, .timerDisarm,
             .timerArm (BitVec.ofInt 32 (Binary64.roundInt deadline - now))] })

/-- R182: an expiry while the one-shot is not armed is ignored: no tick, no state change. -/
def Obligations.SpuriousExpiryIsIgnored : Prop :=
  ∀ s : State, s.armed = false → exec .tick s = .next s

/-- R22, R112: in a tick the phase register runs through 0, 1, ..., 15, 16 and then is 31 (`IDLE`); no
phase has one of the codes 17 to 30. -/
def Obligations.SequencerPhasePath : Prop :=
  (∀ (c : Config) (s : State) (n : Nat), n ≤ 16 →
    (seqRun c n (enterTick s)).ph.code.toNat = n) ∧
  (∀ (c : Config) (s : State), (runTick c s).ph.code.toNat = 31) ∧
  (∀ ph : Phase, ph.code.toNat ≤ 16 ∨ ph.code.toNat = 31) ∧
  (∀ ph ph' : Phase, ph.code = ph'.code → ph = ph')

/-- R217: a registered channel is brought to level 0 by `SETSP p, 0`, one tick, and `STOP p`. -/
def Obligations.IdleLevelRecipe : Prop :=
  ∀ (p : Pin) (s : State),
    s.armed = true → s.ph = .idle → readPin s.reg p = true → (readPin s.acc p).toNat < 256 →
    ∃ t u v, exec (.setsp p 0) s = .next t ∧ exec .tick t = .next u ∧ exec (.stop p) u = .next v ∧
      readPin v.lvl p = false ∧ readPin v.reg p = false ∧ readPin v.dir p = readPin s.dir p

/-! ### Numbers and deadlines -/

/-- R7, R124: `ofInt` is exact for integers below 2^53 in magnitude. -/
def Obligations.OfIntIsExactBelow53Bits : Prop :=
  ∀ i : Int, i.natAbs < 2 ^ 53 →
    Binary64.isFinite (Binary64.ofInt i) = true ∧
    Binary64.scaled (Binary64.ofInt i) = i * Binary64.oneUnit

/-- R124: the sum of two finite numbers whose exact sum is below 2^1023 in magnitude is finite, no
binary64 lies nearer to the exact sum, and of two equally near ones the result is the one whose last
bit is 0. -/
def Obligations.SumIsNearestTiesToEven : Prop :=
  ∀ a b : NUM, Binary64.isFinite a = true → Binary64.isFinite b = true →
    (Binary64.scaled a + Binary64.scaled b).natAbs < 2 ^ 1023 * Binary64.oneUnit →
    Binary64.isFinite (Binary64.add a b) = true ∧
    ∀ z : NUM, Binary64.isFinite z = true →
      (Binary64.scaled (Binary64.add a b) - (Binary64.scaled a + Binary64.scaled b)).natAbs ≤
        (Binary64.scaled z - (Binary64.scaled a + Binary64.scaled b)).natAbs ∧
      ((Binary64.scaled (Binary64.add a b) - (Binary64.scaled a + Binary64.scaled b)).natAbs =
          (Binary64.scaled z - (Binary64.scaled a + Binary64.scaled b)).natAbs →
        Binary64.scaled z ≠ Binary64.scaled (Binary64.add a b) →
        (Binary64.add a b).getLsbD 0 = false)

/-- R129: a sum below 2^32 in magnitude has an error of at most 2^-22. -/
def Obligations.SumErrorBelowDeadlineRange : Prop :=
  ∀ a b : NUM, Binary64.isFinite a = true → Binary64.isFinite b = true →
    (Binary64.scaled a + Binary64.scaled b).natAbs < 2 ^ 32 * Binary64.oneUnit →
    Binary64.isFinite (Binary64.add a b) = true ∧
    (Binary64.scaled (Binary64.add a b) - (Binary64.scaled a + Binary64.scaled b)).natAbs * 2 ^ 22 ≤
      Binary64.oneUnit

/-- R122: the wrap adjustment is exact for deadlines from 2^30 to 2^32. -/
def Obligations.WrapAdjustmentIsExact : Prop :=
  ∀ x : NUM, Binary64.isFinite x = true →
    2 ^ 30 * Binary64.oneUnit ≤ Binary64.scaled x → Binary64.scaled x ≤ 2 ^ 32 * Binary64.oneUnit →
    Binary64.isFinite (Binary64.add x (Binary64.ofInt (-2147483648))) = true ∧
    Binary64.scaled (Binary64.add x (Binary64.ofInt (-2147483648))) =
      Binary64.scaled x - 2147483648 * Binary64.oneUnit

/-- R124: `roundInt(x)` is within 1/2 of x, and on a tie it is the integer farther from zero. -/
def Obligations.RoundIntIsNearestTiesAway : Prop :=
  ∀ x : NUM, Binary64.isFinite x = true →
    2 * (Binary64.roundInt x * Binary64.oneUnit - Binary64.scaled x).natAbs ≤ Binary64.oneUnit ∧
    (2 * (Binary64.roundInt x * Binary64.oneUnit - Binary64.scaled x).natAbs = Binary64.oneUnit →
      (Binary64.scaled x).natAbs < (Binary64.roundInt x * Binary64.oneUnit).natAbs)

/-- R126: the rearm disarms and then arms, and the timer is armed after it; the port carries the delay
modulo 2^32, which read as two's complement is the delay itself whenever that lies in the signed 32-bit
range. -/
def Obligations.RearmCallsAndTheDelayPort : Prop :=
  ∀ (d : Int) (s : State),
    (timerDisarm s).armed = false ∧
    timerArm d (timerDisarm s) = { s with
      armed := true
      events := s.events ++ [.timerDisarm, .timerArm (BitVec.ofInt 32 d)] } ∧
    ((BitVec.ofInt 32 d).toNat : Int) = d % 4294967296 ∧
    (-2147483648 ≤ d → d < 2147483648 → (BitVec.ofInt 32 d).toInt = d)

/-- R17, D34: on every platform `TIME_DELTA` is finite, positive and below 2^30. -/
def Obligations.TimeDeltaIsInRange : Prop :=
  ∀ c : Config, Binary64.isFinite c.timeDelta = true ∧
    0 < Binary64.scaled c.timeDelta ∧ Binary64.scaled c.timeDelta < 2 ^ 30 * Binary64.oneUnit

/-- R17, D17: on every platform with the decided `NUM`, no binary64 lies nearer to `UPS / F` than
`TIME_DELTA`, and of two equally near ones `TIME_DELTA` is the one whose last bit is 0. The comparison
is made in units, times the numerator of `F`. -/
def Obligations.TimeDeltaIsUpsOverF : Prop :=
  ∀ (c : Config) (z : NUM), c.num = Binary64.numerics → Binary64.isFinite z = true →
    let exact : Int := (c.ups * c.f.den : Nat) * Binary64.oneUnit
    let error := fun x : NUM => (Binary64.scaled x * (c.f.num : Nat) - exact).natAbs
    error c.timeDelta ≤ error z ∧
    (error c.timeDelta = error z → Binary64.scaled z ≠ Binary64.scaled c.timeDelta →
      c.timeDelta.getLsbD 0 = false)

/-- R121, R122, R123, R125, R130: let a tick's previous and present reading be those of an unbounded
clock at U and V, less than one wrap period apart, and let the sums be exact. The wrap test is true
exactly when a wrap lies between the readings. The deadline counted on the unbounded clock advances by
exactly one `TIME_DELTA`. The delay is within 1/2 of that deadline less V, and it is the delay the
unbounded clock gives, the nearest integer to the deadline, ties up, less V; only at a tie of a `NEXT`
below 0 may it be the other nearest integer, because `roundInt` then takes the lower one (R124). -/
def Obligations.WraparoundLaw : Prop :=
  ∀ (c : Config) (s : State) (U V : Nat), c.num = Binary64.numerics →
    expiryAccepted s = true → U ≤ V → V - U < 2147483648 →
    s.last.toNat = U % 2147483648 → s.clk.toNat % 2147483648 = V % 2147483648 →
    tickExact c s.clk s →
    (wrapped (maskClock s.clk) s.last = true ↔ V / 2147483648 = U / 2147483648 + 1) ∧
    (tickOn c s).last.toNat = V % 2147483648 ∧
    ∃ deadline delay : Int,
      deadline = Binary64.scaled (tickOn c s).next +
        (V / 2147483648 : Nat) * (2147483648 * Binary64.oneUnit) ∧
      deadline = Binary64.scaled s.next + (U / 2147483648 : Nat) * (2147483648 * Binary64.oneUnit) +
        Binary64.scaled c.timeDelta ∧
      delay = Binary64.roundInt (tickOn c s).next - (V % 2147483648 : Nat) ∧
      (tickOn c s).events.getLast? = some (.timerArm (BitVec.ofInt 32 delay)) ∧
      2 * (delay * Binary64.oneUnit - (deadline - V * Binary64.oneUnit)).natAbs ≤ Binary64.oneUnit ∧
      (0 ≤ Binary64.scaled (tickOn c s).next ∨
        2 * (delay * Binary64.oneUnit - (deadline - V * Binary64.oneUnit)).natAbs ≠
          Binary64.oneUnit →
        delay = (2 * deadline + Binary64.oneUnit) / (2 * Binary64.oneUnit) - V)

/-- R129: from the first successful `INIT`, whose masked reading is n0, after k ticks whose sums are
exact, `NEXT` is `n0 + UPS + k * TIME_DELTA` less one wrap period per detected wrap, and the delay
requested last is the rounded `NEXT` less the last reading. That the first deadline `n0 + UPS` is exact
on every platform rests on the model's bound of `UPS` (notes/assumptions/3.md, DEDUCED from R7). -/
def Obligations.DriftCompensationLaw : Prop :=
  ∀ (c : Config) (p : Pin) (s : State) (samples : List ClockSample),
    c.num = Binary64.numerics → c.pinOk p = true → s.run = false → s.ph = .idle →
    ticksExact c samples (initOn c p s) →
    ∃ t, t = ticksAt c samples (initOn c p s) ∧
      Binary64.scaled t.next =
        ((s.clk.toNat % 2147483648 : Nat) + (c.ups : Nat)) * Binary64.oneUnit +
          samples.length * Binary64.scaled c.timeDelta -
          (wrapCount samples (maskClock s.clk) : Nat) * (2147483648 * Binary64.oneUnit) ∧
      t.run = true ∧ t.armed = true ∧
      ∀ clk, samples.getLast? = some clk →
        t.last.toNat = clk.toNat % 2147483648 ∧
        t.events.getLast? = some (.timerArm
          (BitVec.ofInt 32 (Binary64.roundInt t.next - (clk.toNat % 2147483648 : Nat))))

/-! ### What instructions emit and who writes what -/

/-- R62, R66, R100: every host command answers exactly once, a tick never. -/
def Obligations.OneResponsePerCommand : Prop :=
  ∀ (i : Instr) (s t : State), exec i s = .next t →
    ∃ new, t.events = s.events ++ new ∧
      new.countP Event.isResponse = if i = .tick then 0 else 1

/-- R24, R103, R160, R161, R163: only a tick drives a level, only of an occupied slot; only `INIT` of the
pin configures it, as an output; `LVL[p]` after an instruction is the last level driven on p, else what
it was; `DIR[p]` only ever goes from 0 to 1, by a configuration that was accepted. -/
def Obligations.GpioCallsAndTheirEffect : Prop :=
  ∀ (i : Instr) (s t : State), exec i s = .next t →
    ∃ new, t.events = s.events ++ new ∧
      (∀ p l, Event.gpioSetLevel p l ∈ new → i = .tick ∧ readPin s.reg p = true) ∧
      (∀ p m d ok, Event.gpioConfigure p m d ok ∈ new →
        i = .init p ∧ m = platform.pullMode ∧ d = true ∧ ok = platform.pinOk p) ∧
      (∀ p, readPin t.lvl p = ((levelsOf p new).getLast?).getD (readPin s.lvl p)) ∧
      (∀ p, readPin t.dir p = (readPin s.dir p ||
        decide (Event.gpioConfigure p platform.pullMode true true ∈ new)))

/-- R15, R42, R50, R187: what an instruction leaves unchanged. For each pin: only `INIT`, `START` and `STOP`
of the pin write its `REG`, only `INIT` and `SETSP` of it its `SP`, only `INIT` of it and a tick its
`ACC`, only `INIT` of it its `DIR`, only a tick its `LVL`, and a tick neither `ACC` nor `LVL` of an
empty slot. Only `INIT` writes `RUN`; only a tick, and `INIT` while `RUN` is 0, write `LAST`, `NEXT` and
`ARMED`. After an instruction `PH` is what it was before. No instruction touches the ports. -/
def Obligations.EachRegisterHasItsWriters : Prop :=
  ∀ (i : Instr) (s t : State), exec i s = .next t →
    (∀ p,
      (i ≠ .init p → i ≠ .start p → i ≠ .stop p → readPin t.reg p = readPin s.reg p) ∧
      (i ≠ .init p → (∀ v, i ≠ .setsp p v) → readPin t.sp p = readPin s.sp p) ∧
      (i ≠ .init p → i ≠ .tick → readPin t.acc p = readPin s.acc p) ∧
      (i ≠ .init p → readPin t.dir p = readPin s.dir p) ∧
      (i ≠ .tick → readPin t.lvl p = readPin s.lvl p) ∧
      (i = .tick → readPin s.reg p = false →
        readPin t.acc p = readPin s.acc p ∧ readPin t.lvl p = readPin s.lvl p)) ∧
    ((∀ p, i ≠ .init p) → t.run = s.run) ∧
    (i ≠ .tick → (s.run = true ∨ ∀ p, i ≠ .init p) →
      t.last = s.last ∧ t.next = s.next ∧ t.armed = s.armed ∧ t.run = s.run) ∧
    t.ph = s.ph ∧
    t.cmd = s.cmd ∧ t.fire = s.fire ∧ t.clk = s.clk ∧ t.rst = s.rst ∧ t.inputs = s.inputs ∧
    t.resets = s.resets

/-! ### Invariants and runs -/

/-- The invariant holds at reset. -/
def Obligations.InvariantHoldsAtReset : Prop := Inv State.reset

/-- R13, R16, R18, R22, R124, R211: every step, whatever command, expiry, reset or clock reading it
takes, keeps the accumulators masked, SEQ idle, the timer armed exactly when the scheduler has been
started, outputs configured, the timing registers at rest before the start, and the deadline finite. -/
def Obligations.EveryStepKeepsTheInvariant : Prop :=
  ∀ s t : State, Inv s → StepsTo s t → Inv t

/-- R16, R211, R224: once the scheduler runs, it runs with the timer armed for ever, short of a reset. -/
def Obligations.SchedulerNeverStops : Prop :=
  ∀ (k : Nat) (s t : State), Inv s → noResetAhead s → s.run = true → RunsTo k s t →
    t.run = true ∧ t.armed = true

/-- R182, R216: while no `INIT` has succeeded no tick occurs, whatever `START` registers and whatever
expiries are raised: no level is driven and the clock is not read. -/
def Obligations.NoTickBeforeTheFirstSuccessfulInit : Prop :=
  ∀ (k : Nat) (s t : State), Inv s → noResetAhead s → RunsTo k s t → t.run = false →
    ∃ new, t.events = s.events ++ new ∧ ∀ e ∈ new,
      (∃ r, e = .respond r) ∨ ∃ p, e = .gpioConfigure p platform.pullMode true false

/-- R148: along any run in which channel p is neither created afresh nor given a setpoint nor reset, the
levels driven on pin p, taken in order, are those of a channel that was never stopped, and so is its
accumulator, however often it is stopped and started and whatever other channels do. -/
def Obligations.AccumulatorContinuity : Prop :=
  ∀ (p : Pin) (k : Nat) (s t : State),
    channelLeftAlone p s → (readPin s.acc p).toNat < 256 → RunsTo k s t →
    ∃ new, t.events = s.events ++ new ∧
      levelsOf p new =
        modLevels ((readPin s.acc p).setWidth 8) (readPin s.sp p) (levelsOf p new).length ∧
      readPin t.acc p = (modAcc ((readPin s.acc p).setWidth 8) (readPin s.sp p)
        (levelsOf p new).length).setWidth 16 ∧
      readPin t.sp p = readPin s.sp p

/-- R86, R107 (b): along such a run, any 256 consecutive levels driven on pin p hold exactly as many high
ones as the setpoint says. -/
def Obligations.DutyInEveryWindowOf256Ticks : Prop :=
  ∀ (p : Pin) (k m : Nat) (s t : State) (new : List Event),
    channelLeftAlone p s → (readPin s.acc p).toNat < 256 → RunsTo k s t →
    t.events = s.events ++ new → m + 256 ≤ (levelsOf p new).length →
    (((levelsOf p new).drop m).take 256).count true = (readPin s.sp p).toNat

/-- R110: what a step does to channel p depends on nothing of the other channels and not on the clock:
two states that agree on p step to states that agree on p. A reset that cuts an operation short after
some of its calls is left out: whether the call for pin p is among the first k depends on the others. -/
def Obligations.ChannelsAreIsolated : Prop :=
  ∀ (p : Pin) (s s' t t' : State), (∀ k, s.rst = some k → k = 0) → AgreeOn p s s' →
    StepsTo s t → StepsTo s' t' → AgreeOn p t t'
end

