-- ==== Sys2Proof/Laws/Binary64.lean ====
section
/-! SUPPORT. The bits of a binary64 as a number, and what rounding an integer number of units does: the
significand, the exponent, the error. -/

namespace Sys2Proof.Machine.Binary64

theorem oneUnit_eq : oneUnit = 2 ^ 1074 := by
  delta oneUnit
  exact Eq.refl _

theorem mul_oneUnit (k : Nat) : 2 ^ k * oneUnit = 2 ^ (k + 1074) := by
  rw [oneUnit_eq, Nat.pow_add]

theorem oneUnit_pos : 0 < oneUnit := by
  rw [oneUnit_eq]
  simp only [Nat.two_pow_pos]

/-- The magnitude that a bit pattern without sign stands for. -/
def patternValue (k : Nat) : Nat :=
  if k / 2 ^ 52 = 0 then k % 2 ^ 52 else (2 ^ 52 + k % 2 ^ 52) * 2 ^ (k / 2 ^ 52 - 1)

theorem expField_eq (x : NUM) : expField x = x.toNat / 2 ^ 52 % 2 ^ 11 := by
  simp [expField, BitVec.extractLsb', Nat.shiftRight_eq_div_pow]

theorem fracField_eq (x : NUM) : fracField x = x.toNat % 2 ^ 52 := by
  simp [fracField, BitVec.extractLsb']

theorem negative_eq (x : NUM) : negative x = decide (2 ^ 63 ≤ x.toNat) := by
  have := x.isLt
  simp only [negative, BitVec.getLsbD, Nat.testBit_eq_decide_div_mod_eq]
  congr 1
  apply propext
  omega

theorem magnitude_eq (x : NUM) : magnitude x = patternValue (x.toNat % 2 ^ 63) := by
  have h1 : x.toNat % 2 ^ 63 / 2 ^ 52 = x.toNat / 2 ^ 52 % 2 ^ 11 := by omega
  have h2 : x.toNat % 2 ^ 63 % 2 ^ 52 = x.toNat % 2 ^ 52 := by omega
  simp only [magnitude, patternValue, expField_eq, fracField_eq, h1, h2, Nat.shiftLeft_eq]

/-- The pattern with significand q at exponent e stands for `q * 2^e`, also when q has just rounded up to
54 bits. -/
theorem patternValue_significand {e q : Nat} (hq : q ≤ 2 ^ 53) (he : e = 0 ∨ 2 ^ 52 ≤ q) :
    patternValue (e * 2 ^ 52 + q) = q * 2 ^ e := by
  unfold patternValue
  rcases Nat.lt_or_ge q (2 ^ 52) with h | h
  · have he0 : e = 0 := by omega
    have h1 : (e * 2 ^ 52 + q) / 2 ^ 52 = 0 := by omega
    have h2 : (e * 2 ^ 52 + q) % 2 ^ 52 = q := by omega
    rw [h1, h2, if_pos rfl, he0, Nat.pow_zero, Nat.mul_one]
  · rw [if_neg (by omega)]
    rcases Nat.lt_or_ge q (2 ^ 53) with h' | h'
    · have h1 : (e * 2 ^ 52 + q) / 2 ^ 52 = e + 1 := by omega
      have h2 : (e * 2 ^ 52 + q) % 2 ^ 52 = q - 2 ^ 52 := by omega
      rw [h1, h2, Nat.add_sub_cancel, Nat.add_sub_cancel' h]
    · obtain rfl : q = 2 ^ 53 := by omega
      have h1 : (e * 2 ^ 52 + 2 ^ 53) / 2 ^ 52 = e + 2 := by omega
      have h2 : (e * 2 ^ 52 + 2 ^ 53) % 2 ^ 52 = 0 := by omega
      rw [h1, h2, show e + 2 - 1 = e + 1 by omega, Nat.pow_succ]
      ring

/-- The exponent chosen for a magnitude. -/
def roundExp (n : Nat) : Nat := Nat.log2 n - 52

/-- The significand chosen for a magnitude: nearest, ties to even. -/
def roundSig (n : Nat) : Nat :=
  n / 2 ^ roundExp n +
    if 2 ^ roundExp n < 2 * (n % 2 ^ roundExp n) ∨
      (2 * (n % 2 ^ roundExp n) = 2 ^ roundExp n ∧ n / 2 ^ roundExp n % 2 = 1) then 1 else 0

/-- The exponent chosen for a ratio. -/
def quotientExp (n d : Nat) : Nat := Nat.log2 (n / d) - 52

/-- The significand chosen for a ratio: the nearest multiple of the last place, ties to even. -/
def quotientSig (n d : Nat) : Nat :=
  n / (d * 2 ^ quotientExp n d) +
    if d * 2 ^ quotientExp n d < 2 * (n % (d * 2 ^ quotientExp n d)) ∨
      (2 * (n % (d * 2 ^ quotientExp n d)) = d * 2 ^ quotientExp n d ∧
        n / (d * 2 ^ quotientExp n d) % 2 = 1) then 1 else 0

theorem roundQuotient_eq (n d : Nat) :
    roundQuotient n d = min (quotientExp n d * 2 ^ 52 + quotientSig n d) (2047 * 2 ^ 52) := by
  unfold roundQuotient quotientSig quotientExp
  exact Eq.refl _

theorem roundMagnitude_eq (n : Nat) :
    roundMagnitude n = min (roundExp n * 2 ^ 52 + roundSig n) (2047 * 2 ^ 52) := by
  rw [roundMagnitude, roundQuotient_eq, quotientSig, quotientExp, Nat.div_one, Nat.one_mul,
    ← roundExp, ← roundSig]

theorem roundExp_small {n : Nat} (h : n < 2 ^ 53) : roundExp n = 0 := by
  by_cases h0 : n = 0
  · subst h0; rfl
  · have := (Nat.log2_lt h0).2 h
    simp only [roundExp]
    omega

theorem roundExp_bounds {n : Nat} (h : 0 < roundExp n) :
    2 ^ 52 * 2 ^ roundExp n ≤ n ∧ n < 2 ^ 53 * 2 ^ roundExp n := by
  have h0 : n ≠ 0 := by rintro rfl; revert h; decide
  have hl : Nat.log2 n = 52 + roundExp n := by
    simp only [roundExp] at h ⊢
    omega
  constructor
  · rw [← Nat.pow_add, ← hl]
    exact Nat.log2_self_le h0
  · rw [← Nat.pow_add, show 53 + roundExp n = Nat.log2 n + 1 by omega]
    exact Nat.lt_log2_self

/-- A magnitude below 2^53 units is exact. -/
theorem roundSig_small {n : Nat} (h : n < 2 ^ 53) : roundSig n = n := by
  simp [roundSig, roundExp_small h, Nat.mod_one]

/-- The significand has at most 53 bits, or is 2^53, and its leading bit is set unless the exponent is
the least. -/
theorem roundSig_bounds (n : Nat) :
    roundSig n ≤ 2 ^ 53 ∧ (roundExp n = 0 ∨ 2 ^ 52 ≤ roundSig n) := by
  rcases Nat.eq_zero_or_pos (roundExp n) with h | h
  · have hn : n < 2 ^ 53 := by
      by_contra hc
      have h0 : n ≠ 0 := by omega
      have := (Nat.le_log2 h0).2 (Nat.le_of_not_lt hc)
      simp only [roundExp] at h
      omega
    rw [roundSig_small hn]
    exact ⟨hn.le, Or.inl h⟩
  · obtain ⟨h1, h2⟩ := roundExp_bounds h
    have hp : 0 < 2 ^ roundExp n := Nat.two_pow_pos _
    have h3 := (Nat.le_div_iff_mul_le hp).2 h1
    have h4 := (Nat.div_lt_iff_lt_mul hp).2 h2
    refine ⟨?_, Or.inr ?_⟩ <;>
    · unfold roundSig
      split <;> omega

/-- The rounded magnitude differs from the exact one by at most half a unit of its last place. -/
theorem roundSig_error (n : Nat) :
    2 * (roundSig n * 2 ^ roundExp n) ≤ 2 * n + 2 ^ roundExp n ∧
      2 * n ≤ 2 * (roundSig n * 2 ^ roundExp n) + 2 ^ roundExp n := by
  have h := Nat.div_add_mod n (2 ^ roundExp n)
  have hm := Nat.mod_lt n (Nat.two_pow_pos (roundExp n))
  unfold roundSig
  generalize 2 ^ roundExp n = u at *
  generalize n / u = q at *
  generalize n % u = r at *
  subst h
  have e1 : (q + 1) * u = u * q + u := by ring
  have e2 : (q + 0) * u = u * q := by ring
  split
  · rw [e1]
    omega
  · rw [e2]
    omega

/-- The value of a rounded magnitude that does not overflow. -/
theorem patternValue_roundMagnitude {n : Nat}
    (h : roundExp n * 2 ^ 52 + roundSig n < 2047 * 2 ^ 52) :
    roundMagnitude n < 2047 * 2 ^ 52 ∧
      patternValue (roundMagnitude n) = roundSig n * 2 ^ roundExp n := by
  rw [roundMagnitude_eq, Nat.min_eq_left h.le]
  exact ⟨h, patternValue_significand (roundSig_bounds n).1 (roundSig_bounds n).2⟩

/-- A magnitude below 2^(1023 + 1074) units does not overflow. -/
theorem roundMagnitude_noOverflow {n : Nat} (h : n < 2 ^ 2097) :
    roundExp n * 2 ^ 52 + roundSig n < 2047 * 2 ^ 52 := by
  have hb := (roundSig_bounds n).1
  rcases Nat.eq_zero_or_pos (roundExp n) with he | he
  · rw [he]
    omega
  · have h1 : 2 ^ (52 + roundExp n) < 2 ^ 2097 := by
      rw [Nat.pow_add]
      exact lt_of_le_of_lt (roundExp_bounds he).1 h
    have := (Nat.pow_lt_pow_iff_right (by omega : 1 < 2)).1 h1
    omega

/-- The bits of a rounded number: finite, with the sign of the number and the rounded magnitude. -/
theorem roundScaled_spec {n : Int} (h : n.natAbs < 2 ^ 2097) :
    isFinite (roundScaled n) = true ∧ negative (roundScaled n) = decide (n < 0) ∧
      magnitude (roundScaled n) = roundSig n.natAbs * 2 ^ roundExp n.natAbs := by
  obtain ⟨h1, h2⟩ := patternValue_roundMagnitude (roundMagnitude_noOverflow h)
  have ht : (roundScaled n).toNat = (if n < 0 then 2 ^ 63 else 0) + roundMagnitude n.natAbs := by
    simp only [roundScaled, BitVec.toNat_ofNat]
    split <;> omega
  clear h
  generalize roundMagnitude n.natAbs = k at *
  by_cases hn : n < 0
  · rw [if_pos hn] at ht
    refine ⟨?_, ?_, ?_⟩
    · simp only [isFinite, expField_eq, ht, decide_eq_true_eq]
      omega
    · rw [negative_eq, ht]
      simp [hn]
    · rw [magnitude_eq, ht, ← h2]
      congr 1
      omega
  · rw [if_neg hn] at ht
    refine ⟨?_, ?_, ?_⟩
    · simp only [isFinite, expField_eq, ht, decide_eq_true_eq]
      omega
    · rw [negative_eq, ht]
      simp only [hn, decide_false, decide_eq_false_iff_not]
      omega
    · rw [magnitude_eq, ht, ← h2]
      congr 1
      omega

/-- A magnitude of at most 53 significant bits is not changed by rounding. -/
theorem round_exact {n m k : Nat} (h : n = m * 2 ^ k) (hm : m ≤ 2 ^ 53) :
    roundSig n * 2 ^ roundExp n = n := by
  have hd : 2 ^ roundExp n ∣ n := by
    rcases Nat.eq_zero_or_pos (roundExp n) with he | he
    · rw [he]
      simp
    · obtain ⟨h1, h2⟩ := roundExp_bounds he
      generalize roundExp n = e at *
      rcases Nat.lt_or_ge k e with hk | hk
      · have hm2 : m = 2 ^ 53 := by
          by_contra hne
          have h3 : n < 2 ^ 53 * 2 ^ k := by
            rw [h]
            exact (Nat.mul_lt_mul_right (Nat.two_pow_pos k)).2 (by omega)
          have h4 : 2 ^ 53 * 2 ^ k ≤ 2 ^ 52 * 2 ^ e := by
            rw [← Nat.pow_add, ← Nat.pow_add]
            exact Nat.pow_le_pow_right (by omega) (by omega)
          omega
        rw [hm2, ← Nat.pow_add] at h
        rw [h] at h1 ⊢
        rw [← Nat.pow_add] at h1
        have := (Nat.pow_le_pow_iff_right (by omega : 1 < 2)).1 h1
        exact Nat.pow_dvd_pow 2 (by omega)
      · rw [h]
        exact dvd_mul_of_dvd_right (Nat.pow_dvd_pow 2 hk) m
  have hp := Nat.two_pow_pos (roundExp n)
  simp only [roundSig, Nat.mod_eq_zero_of_dvd hd]
  rw [if_neg (by omega)]
  exact Nat.div_mul_cancel hd

/-- The value of a rounded number. -/
theorem scaled_roundScaled {n : Int} (h : n.natAbs < 2 ^ 2097) :
    scaled (roundScaled n) =
      (if n < 0 then -1 else 1) * ((roundSig n.natAbs * 2 ^ roundExp n.natAbs : Nat) : Int) := by
  obtain ⟨-, h2, h3⟩ := roundScaled_spec h
  rw [scaled, h2, h3]
  by_cases hn : n < 0 <;> simp [hn]

/-- A number of at most 53 significant bits is not changed by rounding. -/
theorem scaled_roundScaled_exact {n : Int} {m k : Nat} (h : n.natAbs < 2 ^ 2097)
    (he : n.natAbs = m * 2 ^ k) (hm : m ≤ 2 ^ 53) : scaled (roundScaled n) = n := by
  rw [scaled_roundScaled h, round_exact he hm]
  split <;> omega

theorem scaled_zero : scaled (0 : NUM) = 0 := by decide +kernel

theorem scaled_negativeZero : scaled (0x8000000000000000 : NUM) = 0 := by decide +kernel

/-- The sum of finite numbers that does not overflow: the exact sum, rounded once (R124). -/
theorem add_spec {a b : NUM} (ha : isFinite a = true) (hb : isFinite b = true)
    (h : (scaled a + scaled b).natAbs < 2 ^ 2097) :
    isFinite (add a b) = true ∧
      scaled (add a b) = (if scaled a + scaled b < 0 then -1 else 1) *
        ((roundSig (scaled a + scaled b).natAbs * 2 ^ roundExp (scaled a + scaled b).natAbs : Nat) :
          Int) := by
  simp only [add, ha, hb, Bool.and_self, if_true, addFinite]
  by_cases h0 : scaled a + scaled b = 0
  · have hz : roundSig (Int.natAbs 0) = 0 := by decide
    rw [if_pos h0, h0, hz]
    split
    · rw [scaled_negativeZero]
      exact ⟨by decide +kernel, by simp⟩
    · rw [scaled_zero]
      exact ⟨by decide +kernel, by simp⟩
  · rw [if_neg h0]
    exact ⟨(roundScaled_spec h).1, scaled_roundScaled h⟩

/-- The magnitude of a finite number is the absolute value of its scaled value. -/
theorem natAbs_scaled (x : NUM) : (scaled x).natAbs = magnitude x := by
  unfold scaled
  split <;> simp

theorem quotientExp_bounds {n d : Nat} (hd : 0 < d) :
    n < 2 ^ 53 * (d * 2 ^ quotientExp n d) ∧
      (0 < quotientExp n d → 2 ^ 52 * (d * 2 ^ quotientExp n d) ≤ n) := by
  have hlt : n / d < 2 ^ (53 + quotientExp n d) := by
    rcases Nat.eq_zero_or_pos (n / d) with h0 | h0
    · rw [h0]
      exact Nat.two_pow_pos _
    · refine (Nat.log2_lt h0.ne').1 ?_
      simp only [quotientExp]
      omega
  refine ⟨?_, fun h => ?_⟩
  · rw [Nat.div_lt_iff_lt_mul hd, Nat.pow_add, Nat.mul_assoc, Nat.mul_comm (2 ^ _) d] at hlt
    exact hlt
  · have h0 : n / d ≠ 0 := by
      intro h0
      simp only [quotientExp, h0] at h
      revert h
      decide
    have hle : 2 ^ (52 + quotientExp n d) ≤ n / d := by
      refine (Nat.le_log2 h0).1 ?_
      simp only [quotientExp] at h ⊢
      omega
    rw [Nat.le_div_iff_mul_le hd, Nat.pow_add, Nat.mul_assoc, Nat.mul_comm (2 ^ _) d] at hle
    exact hle

/-- The significand of a ratio has at most 53 bits, or is 2^53, and its leading bit is set unless the
exponent is the least. -/
theorem quotientSig_bounds {n d : Nat} (hd : 0 < d) :
    quotientSig n d ≤ 2 ^ 53 ∧ (quotientExp n d = 0 ∨ 2 ^ 52 ≤ quotientSig n d) := by
  obtain ⟨h1, h2⟩ := quotientExp_bounds (n := n) hd
  have hw : 0 < d * 2 ^ quotientExp n d := Nat.mul_pos hd (Nat.two_pow_pos _)
  rw [← Nat.div_lt_iff_lt_mul hw] at h1
  rw [← Nat.le_div_iff_mul_le hw] at h2
  unfold quotientSig
  split <;> omega

/-- The quotient `n / d` that does not overflow: finite, not negative, and the significand at the exponent
chosen for it, which is its last place (R17). -/
theorem ofRatio_spec {n d : Nat} (hd : 0 < d)
    (h : quotientExp (n * oneUnit) d * 2 ^ 52 + quotientSig (n * oneUnit) d < 2047 * 2 ^ 52) :
    (ofRatio n d).toNat = quotientExp (n * oneUnit) d * 2 ^ 52 + quotientSig (n * oneUnit) d ∧
      isFinite (ofRatio n d) = true ∧
      scaled (ofRatio n d) =
        (quotientSig (n * oneUnit) d * 2 ^ quotientExp (n * oneUnit) d : Nat) := by
  have hb := quotientSig_bounds (n := n * oneUnit) hd
  have hn : (ofRatio n d).toNat =
      quotientExp (n * oneUnit) d * 2 ^ 52 + quotientSig (n * oneUnit) d := by
    rw [ofRatio, roundQuotient_eq, Nat.min_eq_left h.le, BitVec.toNat_ofNat]
    omega
  refine ⟨hn, ?_, ?_⟩
  · rw [isFinite, expField_eq, hn, decide_eq_true_eq]
    omega
  · have hp : negative (ofRatio n d) = false := by
      rw [negative_eq, hn, decide_eq_false_iff_not]
      omega
    rw [scaled, hp, magnitude_eq, Nat.mod_eq_of_lt (by omega), hn,
      patternValue_significand hb.1 hb.2, if_neg Bool.false_ne_true]

end Sys2Proof.Machine.Binary64
end

