-- ==== Sys2Proof/Laws/Flags.lean ====
section
/-! SUPPORT. The carry and the mask of a slot's sum, as numbers. -/

namespace Sys2Proof.Machine

/-- The carry is bit 8 of the sum of accumulator and setpoint (R102). -/
theorem carry_eq (a : Accumulator) (s : Setpoint) :
    carry (slotSum a s) = decide ((a.toNat + s.toNat) / 256 % 2 = 1) := by
  have ha := a.isLt
  have hs := s.isLt
  simp only [carry, slotSum, BitVec.getLsbD, BitVec.toNat_add, BitVec.toNat_setWidth,
    Nat.testBit_eq_decide_div_mod_eq]
  congr 1
  apply propext
  omega

/-- The masked sum is the sum modulo 256 (R104). -/
theorem maskSum_eq (a : Accumulator) (s : Setpoint) :
    maskSum (slotSum a s) = BitVec.ofNat 16 ((a.toNat + s.toNat) % 256) := by
  have ha := a.isLt
  have hs := s.isLt
  apply BitVec.eq_of_toNat_eq
  have hm : BitVec.toNat (0x00FF : BitVec 16) = 2 ^ 8 - 1 := by decide
  simp only [maskSum, slotSum, BitVec.toNat_and, BitVec.toNat_add, BitVec.toNat_setWidth,
    BitVec.toNat_ofNat]
  rw [hm, Nat.and_two_pow_sub_one_eq_mod]
  omega

/-- The masked sum has its upper byte zero (R104). -/
theorem maskSum_lt (a : Accumulator) (s : Setpoint) : (maskSum (slotSum a s)).toNat < 256 := by
  rw [maskSum_eq, BitVec.toNat_ofNat]
  omega

end Sys2Proof.Machine
end

