-- ==== Sys2Proof/Laws/Operands.lean ====
section
/-! SUPPORT. The fields of a command word as numbers, and a word as the pack of its fields. -/

namespace Sys2Proof.Machine

variable (w : CommandWord) (op : BitVec 4) (p : Pin) (v : Setpoint)

theorem opField_toNat : (opField w).toNat = w.toNat / 4096 := by
  have := w.isLt
  simp [opField, BitVec.extractLsb', Nat.shiftRight_eq_div_pow]
  omega

theorem pinField_val : (pinField w).val = w.toNat / 256 % 16 := by
  simp [pinField, BitVec.extractLsb', Nat.shiftRight_eq_div_pow]

theorem immField_toNat : (immField w).toNat = w.toNat % 256 := by
  simp [immField, BitVec.extractLsb']

theorem shifted_or {a b k : Nat} (h : b < 2 ^ k) : a * 2 ^ k ||| b = a * 2 ^ k + b := by
  rw [Nat.mul_comm, Nat.two_pow_add_eq_or_of_lt h]

theorem packWord_toNat : (packWord op p v).toNat = op.toNat * 4096 + p.val * 256 + v.toNat := by
  have h1 := op.isLt
  have h2 := p.isLt
  have h3 := v.isLt
  simp only [packWord, BitVec.toNat_or, BitVec.toNat_shiftLeft, BitVec.toNat_setWidth,
    BitVec.toNat_ofFin, Nat.shiftLeft_eq]
  rw [Nat.mod_eq_of_lt (a := op.toNat) (by omega), Nat.mod_eq_of_lt (a := p.val) (by omega),
    Nat.mod_eq_of_lt (a := v.toNat) (by omega), Nat.mod_eq_of_lt (by omega),
    Nat.mod_eq_of_lt (by omega), Nat.or_assoc, shifted_or (k := 8) h3, shifted_or (k := 12) (by omega)]
  omega

@[simp] theorem opField_packWord : opField (packWord op p v) = op := by
  apply BitVec.eq_of_toNat_eq
  have h1 := op.isLt
  have h2 := p.isLt
  have h3 := v.isLt
  rw [opField_toNat, packWord_toNat]
  omega

@[simp] theorem pinField_packWord : pinField (packWord op p v) = p := by
  apply Fin.ext
  have h1 := op.isLt
  have h2 := p.isLt
  have h3 := v.isLt
  rw [pinField_val, packWord_toNat]
  omega

@[simp] theorem immField_packWord : immField (packWord op p v) = v := by
  apply BitVec.eq_of_toNat_eq
  have h1 := op.isLt
  have h2 := p.isLt
  have h3 := v.isLt
  rw [immField_toNat, packWord_toNat]
  omega

theorem packWord_fields : packWord (opField w) (pinField w) (immField w) = w := by
  apply BitVec.eq_of_toNat_eq
  have h := w.isLt
  rw [packWord_toNat, opField_toNat, pinField_val, immField_toNat]
  omega

theorem pinData_eq : pinData p = BitVec.ofNat 8 p.val := by
  revert p
  decide

end Sys2Proof.Machine
end

