-- ==== Sys2Proof/Laws/State.lean ====
section
/-! SUPPORT. One lemma per field per update of the state, and the laws of a file of 16 registers. -/

namespace Sys2Proof.Machine

section PinFiles

variable {α : Type} (f : PerPin α) (p q : Pin) (x : α)

@[simp] theorem readPin_writePin_same : readPin (writePin f p x) p = x := by
  simp [readPin, writePin]

theorem readPin_writePin_other (h : q ≠ p) : readPin (writePin f p x) q = readPin f q := by
  have h' : p.val ≠ q.val := fun e => h (Fin.ext e.symm)
  simp [readPin, writePin, h']

theorem readPin_writePin : readPin (writePin f p x) q = if q = p then x else readPin f q := by
  by_cases h : q = p
  · subst h; simp
  · simp [h, readPin_writePin_other f p q x h]

@[simp] theorem readPin_replicate (y : α) : readPin (Vector.replicate 16 y) q = y := by
  simp [readPin]

@[simp] theorem readPin_ofFn (g : Pin → α) : readPin (Vector.ofFn g) q = g q := by
  simp [readPin]

theorem readPin_ext {f g : PerPin α} (h : ∀ p, readPin f p = readPin g p) : f = g := by
  apply Vector.ext
  intro i hi
  exact h ⟨i, hi⟩

theorem writePin_unchanged (h : readPin f p = x) : writePin f p x = f := by
  apply readPin_ext
  intro q
  by_cases e : q = p
  · subst e; simp [h]
  · exact readPin_writePin_other f p q x e

end PinFiles

section Updates

variable (s : State)

@[simp] theorem State.setReg_reg (p : Pin) (b : Bool) : (s.setReg p b).reg = writePin s.reg p b := rfl
@[simp] theorem State.setReg_sp (p : Pin) (b : Bool) : (s.setReg p b).sp = s.sp := rfl
@[simp] theorem State.setReg_acc (p : Pin) (b : Bool) : (s.setReg p b).acc = s.acc := rfl
@[simp] theorem State.setReg_run (p : Pin) (b : Bool) : (s.setReg p b).run = s.run := rfl
@[simp] theorem State.setReg_last (p : Pin) (b : Bool) : (s.setReg p b).last = s.last := rfl
@[simp] theorem State.setReg_next (p : Pin) (b : Bool) : (s.setReg p b).next = s.next := rfl
@[simp] theorem State.setReg_ph (p : Pin) (b : Bool) : (s.setReg p b).ph = s.ph := rfl
@[simp] theorem State.setReg_armed (p : Pin) (b : Bool) : (s.setReg p b).armed = s.armed := rfl
@[simp] theorem State.setReg_dir (p : Pin) (b : Bool) : (s.setReg p b).dir = s.dir := rfl
@[simp] theorem State.setReg_lvl (p : Pin) (b : Bool) : (s.setReg p b).lvl = s.lvl := rfl
@[simp] theorem State.setReg_cmd (p : Pin) (b : Bool) : (s.setReg p b).cmd = s.cmd := rfl
@[simp] theorem State.setReg_fire (p : Pin) (b : Bool) : (s.setReg p b).fire = s.fire := rfl
@[simp] theorem State.setReg_clk (p : Pin) (b : Bool) : (s.setReg p b).clk = s.clk := rfl
@[simp] theorem State.setReg_rst (p : Pin) (b : Bool) : (s.setReg p b).rst = s.rst := rfl
@[simp] theorem State.setReg_inputs (p : Pin) (b : Bool) : (s.setReg p b).inputs = s.inputs := rfl
@[simp] theorem State.setReg_events (p : Pin) (b : Bool) : (s.setReg p b).events = s.events := rfl
@[simp] theorem State.setReg_resets (p : Pin) (b : Bool) : (s.setReg p b).resets = s.resets := rfl

@[simp] theorem State.setSp_reg (p : Pin) (v : Setpoint) : (s.setSp p v).reg = s.reg := rfl
@[simp] theorem State.setSp_sp (p : Pin) (v : Setpoint) : (s.setSp p v).sp = writePin s.sp p v := rfl
@[simp] theorem State.setSp_acc (p : Pin) (v : Setpoint) : (s.setSp p v).acc = s.acc := rfl
@[simp] theorem State.setSp_run (p : Pin) (v : Setpoint) : (s.setSp p v).run = s.run := rfl
@[simp] theorem State.setSp_last (p : Pin) (v : Setpoint) : (s.setSp p v).last = s.last := rfl
@[simp] theorem State.setSp_next (p : Pin) (v : Setpoint) : (s.setSp p v).next = s.next := rfl
@[simp] theorem State.setSp_ph (p : Pin) (v : Setpoint) : (s.setSp p v).ph = s.ph := rfl
@[simp] theorem State.setSp_armed (p : Pin) (v : Setpoint) : (s.setSp p v).armed = s.armed := rfl
@[simp] theorem State.setSp_dir (p : Pin) (v : Setpoint) : (s.setSp p v).dir = s.dir := rfl
@[simp] theorem State.setSp_lvl (p : Pin) (v : Setpoint) : (s.setSp p v).lvl = s.lvl := rfl
@[simp] theorem State.setSp_cmd (p : Pin) (v : Setpoint) : (s.setSp p v).cmd = s.cmd := rfl
@[simp] theorem State.setSp_fire (p : Pin) (v : Setpoint) : (s.setSp p v).fire = s.fire := rfl
@[simp] theorem State.setSp_clk (p : Pin) (v : Setpoint) : (s.setSp p v).clk = s.clk := rfl
@[simp] theorem State.setSp_rst (p : Pin) (v : Setpoint) : (s.setSp p v).rst = s.rst := rfl
@[simp] theorem State.setSp_inputs (p : Pin) (v : Setpoint) : (s.setSp p v).inputs = s.inputs := rfl
@[simp] theorem State.setSp_events (p : Pin) (v : Setpoint) : (s.setSp p v).events = s.events := rfl
@[simp] theorem State.setSp_resets (p : Pin) (v : Setpoint) : (s.setSp p v).resets = s.resets := rfl

@[simp] theorem State.setAcc_reg (p : Pin) (a : Accumulator) : (s.setAcc p a).reg = s.reg := rfl
@[simp] theorem State.setAcc_sp (p : Pin) (a : Accumulator) : (s.setAcc p a).sp = s.sp := rfl
@[simp] theorem State.setAcc_acc (p : Pin) (a : Accumulator) : (s.setAcc p a).acc = writePin s.acc p a := rfl
@[simp] theorem State.setAcc_run (p : Pin) (a : Accumulator) : (s.setAcc p a).run = s.run := rfl
@[simp] theorem State.setAcc_last (p : Pin) (a : Accumulator) : (s.setAcc p a).last = s.last := rfl
@[simp] theorem State.setAcc_next (p : Pin) (a : Accumulator) : (s.setAcc p a).next = s.next := rfl
@[simp] theorem State.setAcc_ph (p : Pin) (a : Accumulator) : (s.setAcc p a).ph = s.ph := rfl
@[simp] theorem State.setAcc_armed (p : Pin) (a : Accumulator) : (s.setAcc p a).armed = s.armed := rfl
@[simp] theorem State.setAcc_dir (p : Pin) (a : Accumulator) : (s.setAcc p a).dir = s.dir := rfl
@[simp] theorem State.setAcc_lvl (p : Pin) (a : Accumulator) : (s.setAcc p a).lvl = s.lvl := rfl
@[simp] theorem State.setAcc_cmd (p : Pin) (a : Accumulator) : (s.setAcc p a).cmd = s.cmd := rfl
@[simp] theorem State.setAcc_fire (p : Pin) (a : Accumulator) : (s.setAcc p a).fire = s.fire := rfl
@[simp] theorem State.setAcc_clk (p : Pin) (a : Accumulator) : (s.setAcc p a).clk = s.clk := rfl
@[simp] theorem State.setAcc_rst (p : Pin) (a : Accumulator) : (s.setAcc p a).rst = s.rst := rfl
@[simp] theorem State.setAcc_inputs (p : Pin) (a : Accumulator) : (s.setAcc p a).inputs = s.inputs := rfl
@[simp] theorem State.setAcc_events (p : Pin) (a : Accumulator) : (s.setAcc p a).events = s.events := rfl
@[simp] theorem State.setAcc_resets (p : Pin) (a : Accumulator) : (s.setAcc p a).resets = s.resets := rfl

@[simp] theorem State.setDir_reg (p : Pin) (b : Bool) : (s.setDir p b).reg = s.reg := rfl
@[simp] theorem State.setDir_sp (p : Pin) (b : Bool) : (s.setDir p b).sp = s.sp := rfl
@[simp] theorem State.setDir_acc (p : Pin) (b : Bool) : (s.setDir p b).acc = s.acc := rfl
@[simp] theorem State.setDir_run (p : Pin) (b : Bool) : (s.setDir p b).run = s.run := rfl
@[simp] theorem State.setDir_last (p : Pin) (b : Bool) : (s.setDir p b).last = s.last := rfl
@[simp] theorem State.setDir_next (p : Pin) (b : Bool) : (s.setDir p b).next = s.next := rfl
@[simp] theorem State.setDir_ph (p : Pin) (b : Bool) : (s.setDir p b).ph = s.ph := rfl
@[simp] theorem State.setDir_armed (p : Pin) (b : Bool) : (s.setDir p b).armed = s.armed := rfl
@[simp] theorem State.setDir_dir (p : Pin) (b : Bool) : (s.setDir p b).dir = writePin s.dir p b := rfl
@[simp] theorem State.setDir_lvl (p : Pin) (b : Bool) : (s.setDir p b).lvl = s.lvl := rfl
@[simp] theorem State.setDir_cmd (p : Pin) (b : Bool) : (s.setDir p b).cmd = s.cmd := rfl
@[simp] theorem State.setDir_fire (p : Pin) (b : Bool) : (s.setDir p b).fire = s.fire := rfl
@[simp] theorem State.setDir_clk (p : Pin) (b : Bool) : (s.setDir p b).clk = s.clk := rfl
@[simp] theorem State.setDir_rst (p : Pin) (b : Bool) : (s.setDir p b).rst = s.rst := rfl
@[simp] theorem State.setDir_inputs (p : Pin) (b : Bool) : (s.setDir p b).inputs = s.inputs := rfl
@[simp] theorem State.setDir_events (p : Pin) (b : Bool) : (s.setDir p b).events = s.events := rfl
@[simp] theorem State.setDir_resets (p : Pin) (b : Bool) : (s.setDir p b).resets = s.resets := rfl

@[simp] theorem State.setLvl_reg (p : Pin) (b : Bool) : (s.setLvl p b).reg = s.reg := rfl
@[simp] theorem State.setLvl_sp (p : Pin) (b : Bool) : (s.setLvl p b).sp = s.sp := rfl
@[simp] theorem State.setLvl_acc (p : Pin) (b : Bool) : (s.setLvl p b).acc = s.acc := rfl
@[simp] theorem State.setLvl_run (p : Pin) (b : Bool) : (s.setLvl p b).run = s.run := rfl
@[simp] theorem State.setLvl_last (p : Pin) (b : Bool) : (s.setLvl p b).last = s.last := rfl
@[simp] theorem State.setLvl_next (p : Pin) (b : Bool) : (s.setLvl p b).next = s.next := rfl
@[simp] theorem State.setLvl_ph (p : Pin) (b : Bool) : (s.setLvl p b).ph = s.ph := rfl
@[simp] theorem State.setLvl_armed (p : Pin) (b : Bool) : (s.setLvl p b).armed = s.armed := rfl
@[simp] theorem State.setLvl_dir (p : Pin) (b : Bool) : (s.setLvl p b).dir = s.dir := rfl
@[simp] theorem State.setLvl_lvl (p : Pin) (b : Bool) : (s.setLvl p b).lvl = writePin s.lvl p b := rfl
@[simp] theorem State.setLvl_cmd (p : Pin) (b : Bool) : (s.setLvl p b).cmd = s.cmd := rfl
@[simp] theorem State.setLvl_fire (p : Pin) (b : Bool) : (s.setLvl p b).fire = s.fire := rfl
@[simp] theorem State.setLvl_clk (p : Pin) (b : Bool) : (s.setLvl p b).clk = s.clk := rfl
@[simp] theorem State.setLvl_rst (p : Pin) (b : Bool) : (s.setLvl p b).rst = s.rst := rfl
@[simp] theorem State.setLvl_inputs (p : Pin) (b : Bool) : (s.setLvl p b).inputs = s.inputs := rfl
@[simp] theorem State.setLvl_events (p : Pin) (b : Bool) : (s.setLvl p b).events = s.events := rfl
@[simp] theorem State.setLvl_resets (p : Pin) (b : Bool) : (s.setLvl p b).resets = s.resets := rfl

@[simp] theorem State.setRun_reg (b : Bool) : (s.setRun b).reg = s.reg := rfl
@[simp] theorem State.setRun_sp (b : Bool) : (s.setRun b).sp = s.sp := rfl
@[simp] theorem State.setRun_acc (b : Bool) : (s.setRun b).acc = s.acc := rfl
@[simp] theorem State.setRun_run (b : Bool) : (s.setRun b).run = b := rfl
@[simp] theorem State.setRun_last (b : Bool) : (s.setRun b).last = s.last := rfl
@[simp] theorem State.setRun_next (b : Bool) : (s.setRun b).next = s.next := rfl
@[simp] theorem State.setRun_ph (b : Bool) : (s.setRun b).ph = s.ph := rfl
@[simp] theorem State.setRun_armed (b : Bool) : (s.setRun b).armed = s.armed := rfl
@[simp] theorem State.setRun_dir (b : Bool) : (s.setRun b).dir = s.dir := rfl
@[simp] theorem State.setRun_lvl (b : Bool) : (s.setRun b).lvl = s.lvl := rfl
@[simp] theorem State.setRun_cmd (b : Bool) : (s.setRun b).cmd = s.cmd := rfl
@[simp] theorem State.setRun_fire (b : Bool) : (s.setRun b).fire = s.fire := rfl
@[simp] theorem State.setRun_clk (b : Bool) : (s.setRun b).clk = s.clk := rfl
@[simp] theorem State.setRun_rst (b : Bool) : (s.setRun b).rst = s.rst := rfl
@[simp] theorem State.setRun_inputs (b : Bool) : (s.setRun b).inputs = s.inputs := rfl
@[simp] theorem State.setRun_events (b : Bool) : (s.setRun b).events = s.events := rfl
@[simp] theorem State.setRun_resets (b : Bool) : (s.setRun b).resets = s.resets := rfl

@[simp] theorem State.setLast_reg (now : MaskedClock) : (s.setLast now).reg = s.reg := rfl
@[simp] theorem State.setLast_sp (now : MaskedClock) : (s.setLast now).sp = s.sp := rfl
@[simp] theorem State.setLast_acc (now : MaskedClock) : (s.setLast now).acc = s.acc := rfl
@[simp] theorem State.setLast_run (now : MaskedClock) : (s.setLast now).run = s.run := rfl
@[simp] theorem State.setLast_last (now : MaskedClock) : (s.setLast now).last = now := rfl
@[simp] theorem State.setLast_next (now : MaskedClock) : (s.setLast now).next = s.next := rfl
@[simp] theorem State.setLast_ph (now : MaskedClock) : (s.setLast now).ph = s.ph := rfl
@[simp] theorem State.setLast_armed (now : MaskedClock) : (s.setLast now).armed = s.armed := rfl
@[simp] theorem State.setLast_dir (now : MaskedClock) : (s.setLast now).dir = s.dir := rfl
@[simp] theorem State.setLast_lvl (now : MaskedClock) : (s.setLast now).lvl = s.lvl := rfl
@[simp] theorem State.setLast_cmd (now : MaskedClock) : (s.setLast now).cmd = s.cmd := rfl
@[simp] theorem State.setLast_fire (now : MaskedClock) : (s.setLast now).fire = s.fire := rfl
@[simp] theorem State.setLast_clk (now : MaskedClock) : (s.setLast now).clk = s.clk := rfl
@[simp] theorem State.setLast_rst (now : MaskedClock) : (s.setLast now).rst = s.rst := rfl
@[simp] theorem State.setLast_inputs (now : MaskedClock) : (s.setLast now).inputs = s.inputs := rfl
@[simp] theorem State.setLast_events (now : MaskedClock) : (s.setLast now).events = s.events := rfl
@[simp] theorem State.setLast_resets (now : MaskedClock) : (s.setLast now).resets = s.resets := rfl

@[simp] theorem State.setNext_reg (x : NUM) : (s.setNext x).reg = s.reg := rfl
@[simp] theorem State.setNext_sp (x : NUM) : (s.setNext x).sp = s.sp := rfl
@[simp] theorem State.setNext_acc (x : NUM) : (s.setNext x).acc = s.acc := rfl
@[simp] theorem State.setNext_run (x : NUM) : (s.setNext x).run = s.run := rfl
@[simp] theorem State.setNext_last (x : NUM) : (s.setNext x).last = s.last := rfl
@[simp] theorem State.setNext_next (x : NUM) : (s.setNext x).next = x := rfl
@[simp] theorem State.setNext_ph (x : NUM) : (s.setNext x).ph = s.ph := rfl
@[simp] theorem State.setNext_armed (x : NUM) : (s.setNext x).armed = s.armed := rfl
@[simp] theorem State.setNext_dir (x : NUM) : (s.setNext x).dir = s.dir := rfl
@[simp] theorem State.setNext_lvl (x : NUM) : (s.setNext x).lvl = s.lvl := rfl
@[simp] theorem State.setNext_cmd (x : NUM) : (s.setNext x).cmd = s.cmd := rfl
@[simp] theorem State.setNext_fire (x : NUM) : (s.setNext x).fire = s.fire := rfl
@[simp] theorem State.setNext_clk (x : NUM) : (s.setNext x).clk = s.clk := rfl
@[simp] theorem State.setNext_rst (x : NUM) : (s.setNext x).rst = s.rst := rfl
@[simp] theorem State.setNext_inputs (x : NUM) : (s.setNext x).inputs = s.inputs := rfl
@[simp] theorem State.setNext_events (x : NUM) : (s.setNext x).events = s.events := rfl
@[simp] theorem State.setNext_resets (x : NUM) : (s.setNext x).resets = s.resets := rfl

@[simp] theorem State.setPh_reg (ph : Phase) : (s.setPh ph).reg = s.reg := rfl
@[simp] theorem State.setPh_sp (ph : Phase) : (s.setPh ph).sp = s.sp := rfl
@[simp] theorem State.setPh_acc (ph : Phase) : (s.setPh ph).acc = s.acc := rfl
@[simp] theorem State.setPh_run (ph : Phase) : (s.setPh ph).run = s.run := rfl
@[simp] theorem State.setPh_last (ph : Phase) : (s.setPh ph).last = s.last := rfl
@[simp] theorem State.setPh_next (ph : Phase) : (s.setPh ph).next = s.next := rfl
@[simp] theorem State.setPh_ph (ph : Phase) : (s.setPh ph).ph = ph := rfl
@[simp] theorem State.setPh_armed (ph : Phase) : (s.setPh ph).armed = s.armed := rfl
@[simp] theorem State.setPh_dir (ph : Phase) : (s.setPh ph).dir = s.dir := rfl
@[simp] theorem State.setPh_lvl (ph : Phase) : (s.setPh ph).lvl = s.lvl := rfl
@[simp] theorem State.setPh_cmd (ph : Phase) : (s.setPh ph).cmd = s.cmd := rfl
@[simp] theorem State.setPh_fire (ph : Phase) : (s.setPh ph).fire = s.fire := rfl
@[simp] theorem State.setPh_clk (ph : Phase) : (s.setPh ph).clk = s.clk := rfl
@[simp] theorem State.setPh_rst (ph : Phase) : (s.setPh ph).rst = s.rst := rfl
@[simp] theorem State.setPh_inputs (ph : Phase) : (s.setPh ph).inputs = s.inputs := rfl
@[simp] theorem State.setPh_events (ph : Phase) : (s.setPh ph).events = s.events := rfl
@[simp] theorem State.setPh_resets (ph : Phase) : (s.setPh ph).resets = s.resets := rfl

@[simp] theorem State.setArmed_reg (b : Bool) : (s.setArmed b).reg = s.reg := rfl
@[simp] theorem State.setArmed_sp (b : Bool) : (s.setArmed b).sp = s.sp := rfl
@[simp] theorem State.setArmed_acc (b : Bool) : (s.setArmed b).acc = s.acc := rfl
@[simp] theorem State.setArmed_run (b : Bool) : (s.setArmed b).run = s.run := rfl
@[simp] theorem State.setArmed_last (b : Bool) : (s.setArmed b).last = s.last := rfl
@[simp] theorem State.setArmed_next (b : Bool) : (s.setArmed b).next = s.next := rfl
@[simp] theorem State.setArmed_ph (b : Bool) : (s.setArmed b).ph = s.ph := rfl
@[simp] theorem State.setArmed_armed (b : Bool) : (s.setArmed b).armed = b := rfl
@[simp] theorem State.setArmed_dir (b : Bool) : (s.setArmed b).dir = s.dir := rfl
@[simp] theorem State.setArmed_lvl (b : Bool) : (s.setArmed b).lvl = s.lvl := rfl
@[simp] theorem State.setArmed_cmd (b : Bool) : (s.setArmed b).cmd = s.cmd := rfl
@[simp] theorem State.setArmed_fire (b : Bool) : (s.setArmed b).fire = s.fire := rfl
@[simp] theorem State.setArmed_clk (b : Bool) : (s.setArmed b).clk = s.clk := rfl
@[simp] theorem State.setArmed_rst (b : Bool) : (s.setArmed b).rst = s.rst := rfl
@[simp] theorem State.setArmed_inputs (b : Bool) : (s.setArmed b).inputs = s.inputs := rfl
@[simp] theorem State.setArmed_events (b : Bool) : (s.setArmed b).events = s.events := rfl
@[simp] theorem State.setArmed_resets (b : Bool) : (s.setArmed b).resets = s.resets := rfl

@[simp] theorem State.emit_reg (e : Event) : (s.emit e).reg = s.reg := rfl
@[simp] theorem State.emit_sp (e : Event) : (s.emit e).sp = s.sp := rfl
@[simp] theorem State.emit_acc (e : Event) : (s.emit e).acc = s.acc := rfl
@[simp] theorem State.emit_run (e : Event) : (s.emit e).run = s.run := rfl
@[simp] theorem State.emit_last (e : Event) : (s.emit e).last = s.last := rfl
@[simp] theorem State.emit_next (e : Event) : (s.emit e).next = s.next := rfl
@[simp] theorem State.emit_ph (e : Event) : (s.emit e).ph = s.ph := rfl
@[simp] theorem State.emit_armed (e : Event) : (s.emit e).armed = s.armed := rfl
@[simp] theorem State.emit_dir (e : Event) : (s.emit e).dir = s.dir := rfl
@[simp] theorem State.emit_lvl (e : Event) : (s.emit e).lvl = s.lvl := rfl
@[simp] theorem State.emit_cmd (e : Event) : (s.emit e).cmd = s.cmd := rfl
@[simp] theorem State.emit_fire (e : Event) : (s.emit e).fire = s.fire := rfl
@[simp] theorem State.emit_clk (e : Event) : (s.emit e).clk = s.clk := rfl
@[simp] theorem State.emit_rst (e : Event) : (s.emit e).rst = s.rst := rfl
@[simp] theorem State.emit_inputs (e : Event) : (s.emit e).inputs = s.inputs := rfl
@[simp] theorem State.emit_events (e : Event) : (s.emit e).events = s.events ++ [e] := rfl
@[simp] theorem State.emit_resets (e : Event) : (s.emit e).resets = s.resets := rfl

end Updates

end Sys2Proof.Machine
end

