-- ==== Sys2Proof/Laws/Ops.lean ====
section
/-! SUPPORT. One lemma for each shared operation that says all it does: the state after it as one update
of the state before it. What an update does not name is unchanged. -/

namespace Sys2Proof.Machine

variable (c : Config) (p i : Pin) (s : State)

theorem register_eq : register p s = { s with reg := writePin s.reg p true } := rfl

theorem unregister_eq : unregister p s = { s with reg := writePin s.reg p false } := rfl

theorem respond_eq (st : Status) (d : BitVec 8) :
    respond st d s = { s with events := s.events ++ [.respond { status := st, data := d }] } := rfl

theorem raise_eq (x : CommandException) :
    raise x s = { s with events := s.events ++ [.respond { status := x.status, data := 0 }] } := rfl

theorem gpioConfigure_eq :
    gpioConfigure c p s =
      { s with
        dir := if c.pinOk p then writePin s.dir p true else s.dir
        events := s.events ++ [.gpioConfigure p c.pullMode true (c.pinOk p)] } := by
  cases h : c.pinOk p <;> simp [gpioConfigure, h, State.emit, State.setDir]

theorem gpioSetLevel_eq (l : Bool) :
    gpioSetLevel p l s =
      { s with lvl := writePin s.lvl p l, events := s.events ++ [.gpioSetLevel p l] } := rfl

theorem readClock_eq : readClock s = { s with events := s.events ++ [.readClock s.clk] } := rfl

theorem timerDisarm_eq :
    timerDisarm s = { s with armed := false, events := s.events ++ [.timerDisarm] } := rfl

theorem timerArm_eq (d : Int) :
    timerArm d s =
      { s with armed := true, events := s.events ++ [.timerArm (BitVec.ofInt 32 d)] } := rfl

/-- Bits 30:0 of the sample (R120). -/
theorem maskClock_eq (x : ClockSample) : maskClock x = BitVec.ofNat 31 x.toNat := by
  apply BitVec.eq_of_getLsbD_eq
  intro i hi
  have : clockMask.getLsbD i = true := by
    interval_cases i <;> rfl
  simp [maskClock, hi, this, -BitVec.getLsbD_eq_getElem]

theorem maskClock_toNat (x : ClockSample) : (maskClock x).toNat = x.toNat % 2147483648 := by
  rw [maskClock_eq]
  simp

theorem armFirst_eq :
    armFirst c s =
      { s with
        last := maskClock s.clk
        next := c.num.ofInt ((maskClock s.clk).toNat + c.ups)
        armed := true
        events := s.events ++
          [.readClock s.clk, .timerDisarm, .timerArm (BitVec.ofInt 32 c.ups)] } := by
  simp [armFirst, timerArm_eq, timerDisarm_eq, readClock_eq, State.setLast, State.setNext]

/-- Creating the channel when the scheduler runs already (R140). -/
theorem initChannel_running (h : s.run = true) :
    initChannel c p s =
      { s with
        sp := writePin s.sp p 0
        acc := writePin s.acc p 0
        reg := writePin s.reg p true
        events := s.events ++ [.respond { status := .ok, data := pinData p }] } := by
  simp [initChannel, ensureRunning, h, respond_eq, register_eq, State.setSp, State.setAcc]

/-- Creating the channel with the first success, which arms the timer (R140, R141). -/
theorem initChannel_first (h : s.run = false) :
    initChannel c p s =
      { s with
        sp := writePin s.sp p 0
        acc := writePin s.acc p 0
        reg := writePin s.reg p true
        run := true
        last := maskClock s.clk
        next := c.num.ofInt ((maskClock s.clk).toNat + c.ups)
        armed := true
        events := s.events ++
          [.readClock s.clk, .timerDisarm, .timerArm (BitVec.ofInt 32 c.ups),
            .respond { status := .ok, data := pinData p }] } := by
  simp [initChannel, ensureRunning, h, armFirst_eq, respond_eq, register_eq, State.setSp,
    State.setAcc, State.setRun]

theorem enterTick_eq : enterTick s = { s with armed := false, ph := .scan 0 } := rfl

theorem leaveTick_eq : leaveTick s = { s with ph := .idle } := rfl

/-- The visit of a slot changes at most the accumulator and the level of its own pin (R101 to R104). -/
theorem visitSlot_eq :
    visitSlot i s =
      if readPin s.reg i then
        { s with
          acc := writePin s.acc i (maskSum (slotSum (readPin s.acc i) (readPin s.sp i)))
          lvl := writePin s.lvl i (carry (slotSum (readPin s.acc i) (readPin s.sp i)))
          events := s.events ++
            [.gpioSetLevel i (carry (slotSum (readPin s.acc i) (readPin s.sp i)))] }
      else s := rfl

/-- The rearm: clock reading, wrap adjustment, deadline, delay (R127). -/
theorem rearm_eq :
    rearm c s =
      let now := maskClock s.clk
      let x := if wrapped now s.last then c.num.add s.next (c.num.ofInt (-(wrapPeriod : Int)))
        else s.next
      let y := c.num.add x c.timeDelta
      { s with
        last := now
        next := y
        armed := true
        events := s.events ++
          [.readClock s.clk, .timerDisarm,
            .timerArm (BitVec.ofInt 32 (c.num.roundInt y - now.toNat))] } := by
  cases h : wrapped (maskClock s.clk) s.last <;>
    simp [rearm, adjustWrap, advanceDeadline, rearmDelay, readClock_eq, timerArm_eq, timerDisarm_eq,
      State.setNext, State.setLast, h]

theorem afterReset_keeps (k : Nat) (clk : ClockSample) (inputs : List Input) (events : List Event) :
    (State.afterReset c k clk inputs events).inputs = inputs ∧
      (State.afterReset c k clk inputs events).events = events := ⟨rfl, rfl⟩

@[simp] theorem levelsOf_nil : levelsOf p [] = [] := rfl

@[simp] theorem levelsOf_append (es fs : List Event) :
    levelsOf p (es ++ fs) = levelsOf p es ++ levelsOf p fs := by
  simp [levelsOf]

@[simp] theorem levelsOf_cons (e : Event) (es : List Event) :
    levelsOf p (e :: es) = (e.level? p).toList ++ levelsOf p es := by
  cases h : e.level? p <;> simp [levelsOf, h]

end Sys2Proof.Machine
end

