-- ==== Sys2Proof/Laws/PerInstr.lean ====
section
/-! SUPPORT. What holds of every operation as syntax: the word that presents it is legal and lies in the
operation's own row of the opcode table (30_encoding.md rules R61, R63, R65). One lemma for each
constructor. -/

namespace Sys2Proof.Laws

open Machine

/-- The row of the opcode table that an operation belongs to, as a condition on the word that presents it
(R63). -/
def inRow : Instr → PortWord → Bool
  | .init _, .host w => w &&& 0xF0FF == 0x1000
  | .start _, .host w => w &&& 0xF0FF == 0x2000
  | .stop _, .host w => w &&& 0xF0FF == 0x3000
  | .setsp _ _, .host w => w &&& 0xF000 == 0x4000
  | .getsp _, .host w => w &&& 0xF0FF == 0x5000
  | .tick, .timer fire => fire == 1
  | .init _, .timer _ => false
  | .start _, .timer _ => false
  | .stop _, .timer _ => false
  | .setsp _ _, .timer _ => false
  | .getsp _, .timer _ => false
  | .tick, .host _ => false

/-- The operation is well-formed, and its word is legal and lies in its row. -/
def TableRow.Statement (i : Instr) : Prop :=
  WellFormed.instr i = true ∧ WellFormed.legal (encode i) = true ∧ inRow i (encode i) = true

theorem TableRow.init (p : Pin) : TableRow.Statement (.init p) := by
  unfold TableRow.Statement
  revert p
  decide +kernel

theorem TableRow.start (p : Pin) : TableRow.Statement (.start p) := by
  unfold TableRow.Statement
  revert p
  decide +kernel

theorem TableRow.stop (p : Pin) : TableRow.Statement (.stop p) := by
  unfold TableRow.Statement
  revert p
  decide +kernel

theorem TableRow.setsp (p : Pin) (v : Setpoint) : TableRow.Statement (.setsp p v) := by
  unfold TableRow.Statement
  revert p v
  decide +kernel

theorem TableRow.getsp (p : Pin) : TableRow.Statement (.getsp p) := by
  unfold TableRow.Statement
  revert p
  decide +kernel

theorem TableRow.tick : TableRow.Statement .tick := by
  unfold TableRow.Statement
  decide +kernel

end Sys2Proof.Laws
end

