-- ==== Sys2Proof/Laws/Tick.lean ====
section
/-! SUPPORT. The sequencer: runs compose, an idle sequencer stays as it is, and the state after the first
n slot visits of a tick. -/

namespace Sys2Proof.Machine

open Safety

variable (c : Config)

theorem seqRun_add (m n : Nat) (s : State) : seqRun c (m + n) s = seqRun c n (seqRun c m s) := by
  induction m generalizing s with
  | zero => simp [seqRun]
  | succ m ih => rw [Nat.succ_add]; exact ih (seqStep c s)

theorem seqRun_succ (n : Nat) (s : State) : seqRun c (n + 1) s = seqStep c (seqRun c n s) :=
  seqRun_add c n 1 s

theorem seqStep_scan {s : State} {i : Pin} (h : s.ph = .scan i) :
    seqStep c s = { visitSlot i s with ph := phaseAfter i } := by
  simp [seqStep, h, State.setPh]

theorem seqStep_rearm {s : State} (h : s.ph = .rearm) :
    seqStep c s = { rearm c s with ph := .idle } := by
  simp [seqStep, h, leaveTick, State.setPh]

theorem seqStep_idle {s : State} (h : s.ph = .idle) : seqStep c s = s := by
  simp [seqStep, h]

theorem seqRun_idle {s : State} (h : s.ph = .idle) (n : Nat) : seqRun c n s = s := by
  induction n with
  | zero => rfl
  | succ n ih => simpa [seqRun, seqStep_idle c h] using ih

/-- The phase in which SEQ stands after n visits (R22). -/
def phaseOf (n : Nat) : Phase := if h : n < 16 then .scan ⟨n, h⟩ else .rearm

theorem phaseAfter_eq (i : Pin) : phaseAfter i = phaseOf (i.val + 1) := rfl

/-- The state after the visits of slots 0 to n - 1, as one update of the state at the tick's entry. -/
def scanned (n : Nat) (s : State) : State :=
  { s with
    acc := Vector.ofFn fun p =>
      if p.val < n ∧ readPin s.reg p = true then
        maskSum (slotSum (readPin s.acc p) (readPin s.sp p))
      else readPin s.acc p
    lvl := Vector.ofFn fun p =>
      if p.val < n ∧ readPin s.reg p = true then carry (slotSum (readPin s.acc p) (readPin s.sp p))
      else readPin s.lvl p
    events := s.events ++ (((List.finRange 16).take n).filterMap (driveOf s))
    armed := false
    ph := phaseOf n }

theorem finRange_take_succ {n : Nat} (h : n < 16) :
    (List.finRange 16).take (n + 1) = (List.finRange 16).take n ++ [⟨n, h⟩] := by
  rw [List.take_succ_eq_append_getElem (by simpa using h)]
  simp

theorem visitSlot_scanned {n : Nat} (h : n < 16) (s : State) :
    { visitSlot ⟨n, h⟩ (scanned n s) with ph := phaseOf (n + 1) } = scanned (n + 1) s := by
  have other (p : Pin) (hp : p ≠ ⟨n, h⟩) : (p.val ≤ n) = (p.val < n) := by
    have : p.val ≠ n := fun e => hp (Fin.ext e)
    apply propext; omega
  rw [visitSlot_eq]
  cases hr : readPin s.reg ⟨n, h⟩ with
  | false =>
    have hp (p : Pin) :
        (p.val ≤ n ∧ readPin s.reg p = true) = (p.val < n ∧ readPin s.reg p = true) := by
      by_cases e : p = ⟨n, h⟩
      · subst e; simp [hr]
      · rw [other p e]
    simp [scanned, hr, hp, finRange_take_succ h, driveOf]
  | true =>
    simp only [scanned, hr, if_true, readPin_ofFn, Nat.lt_irrefl, false_and, if_false, finRange_take_succ h,
      List.filterMap_append, List.append_assoc]
    congr 1
    · apply readPin_ext
      intro p
      by_cases e : p = ⟨n, h⟩
      · subst e; simp [hr]
      · simp [readPin_writePin_other _ _ _ _ e, other p e]
    · apply readPin_ext
      intro p
      by_cases e : p = ⟨n, h⟩
      · subst e; simp [hr]
      · simp [readPin_writePin_other _ _ _ _ e, other p e]
    · simp [driveOf, hr]

/-- The state of SEQ after n of the 16 visits of a tick (R100 to R104). -/
theorem seqRun_scanned {n : Nat} (h : n ≤ 16) (s : State) :
    seqRun c n (enterTick s) = scanned n s := by
  induction n with
  | zero =>
    simp only [seqRun, enterTick_eq, scanned, Nat.not_lt_zero, false_and, if_false, List.take_zero,
      List.filterMap_nil, List.append_nil]
    congr 1 <;> exact readPin_ext fun p => by simp
  | succ n ih =>
    have hn : n < 16 := h
    rw [seqRun_succ, ih hn.le, seqStep_scan c (i := ⟨n, hn⟩) (by simp [scanned, phaseOf, hn])]
    exact visitSlot_scanned hn s

/-- A whole tick: 16 visits, the rearm, and SEQ idle again (R100). -/
theorem runTick_eq (s : State) :
    runTick c s = { rearm c (scanned 16 s) with ph := .idle } := by
  unfold runTick tickPhases
  rw [seqRun_succ, seqRun_scanned c le_rfl]
  exact seqStep_rearm c (by simp [scanned, phaseOf])

/-- An accepted expiry runs the whole tick (R181). -/
theorem tickOn_accepted {s : State} (h1 : s.armed = true) (h2 : s.ph = .idle) :
    tickOn c s = { rearm c (scanned 16 s) with ph := .idle } := by
  rw [tickOn, if_pos (by simp [expiryAccepted, h1, h2]), runTick_eq]

/-- An expiry is accepted, or nothing happens (R182). -/
theorem tickOn_accepted_or_same (s : State) :
    (s.armed = true ∧ s.ph = .idle) ∨ tickOn c s = s := by
  unfold tickOn
  split
  · rename_i h
    exact Or.inl (by simpa [expiryAccepted] using h)
  · exact Or.inr rfl

/-- The calls of the slots, and on pin p the one of slot p (R103, R106). -/
theorem levelsOf_drives (s : State) (p : Pin) :
    levelsOf p ((List.finRange 16).filterMap (driveOf s)) =
      if readPin s.reg p then [carry (slotSum (readPin s.acc p) (readPin s.sp p))] else [] := by
  have key : ∀ l : List Pin, l.Nodup → levelsOf p (l.filterMap (driveOf s)) =
      if p ∈ l ∧ readPin s.reg p = true then
        [carry (slotSum (readPin s.acc p) (readPin s.sp p))] else [] := by
    intro l hl
    induction l with
    | nil => simp
    | cons a l ih =>
      simp only [List.nodup_cons] at hl
      replace ih := ih hl.2
      rw [List.filterMap_cons]
      by_cases e : p = a
      · subst e
        cases hr : readPin s.reg p
        · simp [driveOf, hr, ih]
        · simp [driveOf, hr, ih, hl.1, Event.level?]
      · cases hr : readPin s.reg a
        · simp [driveOf, hr, ih, e]
        · simp [driveOf, hr, ih, e, Event.level?, Ne.symm e]
  simp [key _ (List.nodup_finRange 16)]

end Sys2Proof.Machine
end

