-- ==== Sys2Proof/Laws/Step.lean ====
section
/-! SUPPORT. What `exec` leaves alone, and what a step can do, said once. -/

namespace Sys2Proof.Machine

open Safety

theorem seqStep_ports (c : Config) (s : State) :
    (seqStep c s).cmd = s.cmd ∧ (seqStep c s).fire = s.fire ∧ (seqStep c s).clk = s.clk ∧
      (seqStep c s).rst = s.rst ∧
      (seqStep c s).inputs = s.inputs ∧ (seqStep c s).resets = s.resets ∧
      (seqStep c s).reg = s.reg ∧ (seqStep c s).sp = s.sp ∧ (seqStep c s).run = s.run ∧
      (seqStep c s).dir = s.dir := by
  cases h : s.ph with
  | idle => simp [seqStep_idle c h]
  | scan i =>
    rw [seqStep_scan c h, visitSlot_eq]
    split <;> simp
  | rearm =>
    rw [seqStep_rearm c h, rearm_eq]
    simp

/-- SEQ writes neither the ports nor what belongs to HOST (R50). -/
theorem seqRun_ports (c : Config) (n : Nat) (s : State) :
    (seqRun c n s).cmd = s.cmd ∧ (seqRun c n s).fire = s.fire ∧ (seqRun c n s).clk = s.clk ∧
      (seqRun c n s).rst = s.rst ∧
      (seqRun c n s).inputs = s.inputs ∧ (seqRun c n s).resets = s.resets ∧
      (seqRun c n s).reg = s.reg ∧ (seqRun c n s).sp = s.sp ∧ (seqRun c n s).run = s.run ∧
      (seqRun c n s).dir = s.dir := by
  induction n generalizing s with
  | zero => simp [seqRun]
  | succ n ih => simpa [seqRun, seqStep_ports c s] using ih (seqStep c s)

/-- `exec` answers a next state for every instruction and state. -/
theorem exec_next (i : Instr) (s : State) : ∃ t, exec i s = .next t := by
  cases i <;> exact ⟨_, rfl⟩

/-- Every transition answers a next state. -/
theorem perform_next (f : Fetched) : ∃ t, perform f = .next t := by
  cases f with
  | instr i s => exact exec_next i s
  | other s => exact ⟨s, rfl⟩

/-- The transitions that are no instruction, from s to t. -/
inductive OtherStep (s : State) : State → Prop where
  /-- Reset, after k calls of the operation in progress. -/
  | reset (k : Nat) (hr : s.rst = some k) : OtherStep s (abandonAfter platform k s)
  /-- SEQ, inside a tick, finishes it. -/
  | sequencer (hr : s.rst = none) (h : s.ph ≠ .idle) : OtherStep s (seqRun platform tickPhases s)
  /-- An illegal word is answered. -/
  | illegal (w : CommandWord) (e : DecodeError) (hr : s.rst = none) (hp : s.ph = .idle)
      (hf : s.fire = false) (hc : s.cmd = some w) (hd : decode (.host w) = .error e) :
      OtherStep s (illegalWord { s with cmd := none })
  /-- The next input arrives. -/
  | arrival (i : Input) (rest : List Input) (hr : s.rst = none) (hp : s.ph = .idle)
      (hf : s.fire = false) (hc : s.cmd = none) (hi : s.inputs = i :: rest) :
      OtherStep s (arrive i { s with inputs := rest })
  /-- Nothing is pending and nothing is to come. -/
  | rest (hr : s.rst = none) (hp : s.ph = .idle) (hf : s.fire = false) (hc : s.cmd = none)
      (hi : s.inputs = []) : OtherStep s s

/-- Reset leaves the registers at their reset values and, of the operation it abandons, the first k calls
(R210). -/
theorem abandonAfter_eq (c : Config) (k : Nat) {s t : State}
    (h : perform (takeNext c { s with rst := none }) = .next t) :
    abandonAfter c k s = State.afterReset c (s.resets + 1) s.clk s.inputs
      (t.events.take (s.events.length + k)) := by
  rw [abandonAfter, h]
  rfl

/-- Whatever reset abandons, the registers are at their reset values (R25, R210). -/
theorem abandonAfter_registers (c : Config) (k : Nat) (s : State) :
    ∃ events, abandonAfter c k s = State.afterReset c (s.resets + 1) s.clk s.inputs events :=
  ⟨_, rfl⟩

theorem fetch_reset (c : Config) {s : State} {k : Nat} (hr : s.rst = some k) :
    fetch c s = .other (abandonAfter c k s) := by
  simp only [fetch, hr]

theorem fetch_takeNext (c : Config) {s : State} (hr : s.rst = none) : fetch c s = takeNext c s := by
  simp only [fetch, hr]

theorem takeNext_expiry (c : Config) {s : State} (hp : s.ph = .idle) (hf : s.fire = true) :
    takeNext c s = .instr .tick { s with fire := false } := by
  unfold takeNext
  split
  · exact if_pos hf
  · contradiction

theorem takeNext_idle (c : Config) {s : State} (hp : s.ph = .idle) (hf : s.fire = false) :
    takeNext c s =
      match s.cmd with
      | some w => acceptCommand w s
      | none =>
        match s.inputs with
        | [] => .other s
        | i :: rest => .other (arrive i { s with inputs := rest }) := by
  unfold takeNext
  split
  · exact if_neg (Bool.eq_false_iff.1 hf)
  · contradiction

theorem takeNext_inside (c : Config) {s : State} (hp : s.ph ≠ .idle) :
    takeNext c s = .other (seqRun c tickPhases s) := by
  unfold takeNext
  split
  · contradiction
  · rfl

theorem step_reset {s : State} {k : Nat} (hr : s.rst = some k) :
    step s = .next (abandonAfter platform k s) := by
  rw [step, fetch_reset platform hr, perform]

theorem step_takeNext {s : State} (hr : s.rst = none) : step s = perform (takeNext platform s) := by
  rw [step, fetch_takeNext platform hr]

/-- What a step can do: an expiry that runs `TICK`, a legal command, or one of the transitions that run
no instruction. -/
theorem step_cases {s t : State} (h : step s = .next t) :
    (s.rst = none ∧ s.ph = .idle ∧ s.fire = true ∧ exec .tick { s with fire := false } = .next t) ∨
    (∃ w i, s.rst = none ∧ s.ph = .idle ∧ s.fire = false ∧ s.cmd = some w ∧
      decode (.host w) = .ok i ∧ exec i { s with cmd := none } = .next t) ∨
    OtherStep s t := by
  by_cases hr : s.rst = none
  · rw [step_takeNext hr] at h
    by_cases hp : s.ph = .idle
    · by_cases hf : s.fire = true
      · rw [takeNext_expiry platform hp hf, perform] at h
        exact Or.inl ⟨hr, hp, hf, h⟩
      · replace hf := Bool.eq_false_iff.2 hf
        right
        rw [takeNext_idle platform hp hf] at h
        cases hc : s.cmd with
        | some w =>
          simp only [hc, acceptCommand] at h
          cases hd : decode (.host w) with
          | ok i =>
            rw [hd, perform] at h
            exact Or.inl ⟨w, i, hr, hp, hf, rfl, hd, h⟩
          | error e =>
            rw [hd] at h
            cases h
            exact Or.inr (.illegal w e hr hp hf hc hd)
        | none =>
          simp only [hc] at h
          cases hi : s.inputs with
          | nil =>
            rw [hi] at h
            cases h
            exact Or.inr (.rest hr hp hf hc hi)
          | cons i rest =>
            rw [hi] at h
            cases h
            exact Or.inr (.arrival i rest hr hp hf hc hi)
    · rw [takeNext_inside platform hp] at h
      cases h
      exact Or.inr (Or.inr (.sequencer hr hp))
  · obtain ⟨k, hk⟩ := Option.ne_none_iff_exists'.1 hr
    rw [step_reset hk] at h
    cases h
    exact Or.inr (Or.inr (.reset k hk))

/-- A run of k + 1 steps is a step and a run of k steps. -/
theorem runsTo_succ {k : Nat} {s t : State} (h : RunsTo (k + 1) s t) :
    ∃ u, step s = .next u ∧ RunsTo k u t := by
  obtain ⟨u, hu⟩ : ∃ u, step s = .next u := perform_next _
  refine ⟨u, hu, ?_⟩
  have e : core.step s = .next u := hu
  have h' := (Host.Core.run.eq_2 core s k).symm.trans h
  rw [e] at h'
  exact h'

/-- A step followed by a run of k steps is a run of k + 1 steps. -/
theorem runsTo_step {k : Nat} {s u t : State} (h : step s = .next u) (h' : RunsTo k u t) :
    RunsTo (k + 1) s t := by
  have e : core.step s = .next u := h
  refine (Host.Core.run.eq_2 core s k).trans ?_
  rw [e]
  exact h'

/-- From every state there is a run of every length. -/
theorem runsTo_exists (k : Nat) (s : State) : ∃ t, RunsTo k s t := by
  induction k generalizing s with
  | zero => exact ⟨s, rfl⟩
  | succ k ih =>
    obtain ⟨u, hu⟩ : ∃ u, step s = .next u := perform_next _
    obtain ⟨t, ht⟩ := ih u
    exact ⟨t, runsTo_step hu ht⟩

theorem runsTo_zero {s t : State} (h : RunsTo 0 s t) : s = t := by
  cases h
  rfl

end Sys2Proof.Machine
end

