-- ==== Sys2Proof/Tests/Slice0.lean ====
section
/-! SUPPORT. Tests. The expected results are those of spec/95_test_vectors.md (V and P name its vectors and
programs), or are counted by hand from the rule named. `witness_` theorems give states and operands that
meet the hypotheses of an obligation together. -/

namespace Sys2Proof.Tests

open Machine Safety

/-! ### Words -/

/-- R65: `op` 0x0, 0x6 and 0xF are refused by the first check. -/
theorem test_wellFormed_refuses_reserved_op :
    WellFormed.opDefined 0x0000 = false ∧ WellFormed.opDefined 0x6000 = false ∧
      WellFormed.opDefined 0xFFFF = false := by decide

/-- R65: an immediate where none belongs is refused by the second check (V15b, V15c). -/
theorem test_wellFormed_refuses_immediate :
    WellFormed.immAllowed 0x1501 = false ∧ WellFormed.immAllowed 0x5580 = false ∧
      WellFormed.immAllowed 0x45FF = true := by decide

/-- R61: the event input at 0 carries no operation. -/
theorem test_wellFormed_refuses_no_event :
    WellFormed.legal (.timer 0) = false ∧ WellFormed.legal (.timer 1) = true := by decide

theorem test_wellFormed_operands : WellFormed.instr (.setsp 15 255) = true := by decide

/-- V11. -/
theorem test_decode_init : decode (.host 0b0001_0101_00000000) = .ok (.init 5) := by decide

/-- V12. -/
theorem test_decode_start : decode (.host 0b0010_1111_00000000) = .ok (.start 15) := by decide

/-- V13. -/
theorem test_decode_stop : decode (.host 0b0011_0000_00000000) = .ok (.stop 0) := by decide

/-- V14, V14b. -/
theorem test_decode_setsp :
    decode (.host 0b0100_0101_11111111) = .ok (.setsp 5 255) ∧
      decode (.host 0b0100_0000_00000000) = .ok (.setsp 0 0) := by decide

/-- V15. -/
theorem test_decode_getsp : decode (.host 0b0101_0101_00000000) = .ok (.getsp 5) := by decide

/-- R61. -/
theorem test_decode_tick : decode (.timer 1) = .ok .tick ∧ decode (.timer 0) = .error .noEvent := by
  decide

/-- V15a to V15d. -/
theorem test_decode_illegal :
    decode (.host 0x0000) = .error (.reservedOp 0) ∧ decode (.host 0x1501) = .error (.nonzeroImm 1) ∧
      decode (.host 0x5580) = .error (.nonzeroImm 0x80) ∧
      decode (.host 0x6000) = .error (.reservedOp 6) ∧
      decode (.host 0xFFFF) = .error (.reservedOp 15) := by decide

/-- The words of programs P1 to P3. -/
theorem test_encode :
    encode (.init 12) = .host 0x1C00 ∧ encode (.start 12) = .host 0x2C00 ∧
      encode (.stop 12) = .host 0x3C00 ∧ encode (.setsp 5 128) = .host 0x4580 ∧
      encode (.getsp 5) = .host 0x5500 ∧ encode .tick = .timer 1 := by decide

theorem test_decodeTableWord :
    decodeTableWord 16 0x1500 = some (.init 5) ∧ decodeTableWord 16 0x4CC0 = some (.setsp 12 192) ∧
      decodeTableWord 8 1 = some .tick ∧ decodeTableWord 8 0 = none ∧
      decodeTableWord 16 0x1501 = none := by decide

/-! ### Small states -/

/-- The example platform of spec/95_test_vectors.md with `F = 1000`: `UPS = 1000000`; pins 6 to 11 are
refused, as in P3. -/
def example1000 : Config where
  ups := 1000000
  f := { num := 1000, den := 1 }
  ups_range := by decide
  f_positive := by decide
  timeDelta_range := by decide +kernel
  pinOk := fun p => !(decide (6 ≤ p.val) && decide (p.val ≤ 11))
  lvlReset := fun _ _ => false
  num := Binary64.numerics

/-- The same platform with `F = 2048` (P4). -/
def example2048 : Config :=
  { example1000 with
    f := { num := 2048, den := 1 }
    f_positive := by decide
    timeDelta_range := by decide +kernel }

/-- A platform whose `UPS / F` is `2^29 + 2^-24`, halfway between two binary64 numbers. -/
def exampleTie : Config :=
  { example1000 with
    ups := 1
    f := { num := 16777216, den := 9007199254740993 }
    ups_range := by decide
    f_positive := by decide
    timeDelta_range := by decide +kernel }

/-- An input that shows the two ports and the clock, with `rst_n` high. -/
def shows (cmd : Option CommandWord) (fire : Bool) (clk : ClockSample) : Input :=
  { cmd := cmd, fire := fire, clk := clk, rst := none }

/-- An input that asserts `rst_n` between operations. -/
def resets : Input := { cmd := none, fire := false, clk := 0, rst := some 0 }

/-- After reset, with the clock at 5000. -/
def fresh : State := State.afterReset example1000 0 5000 [] []

/-- The scheduler started, channel 5 registered with the given setpoint and accumulator, and the given
timing registers and clock. -/
def running (sp : Setpoint) (acc : Accumulator) (last : MaskedClock) (next : NUM)
    (clk : ClockSample) : State :=
  { fresh with
    reg := writePin fresh.reg 5 true
    sp := writePin fresh.sp 5 sp
    acc := writePin fresh.acc 5 acc
    run := true
    armed := true
    last := last
    next := next
    clk := clk }

/-- A view of the next state, where there is one. -/
def seen {α : Type} (o : Host.Outcome State Fault Refusal) (view : State → α) : Option α :=
  match o with
  | .next s => some (view s)
  | .fault _ => none
  | .refused _ => none

/-! ### One step of each instruction -/

/-- V16. -/
theorem test_init_first :
    (initOn example1000 5 fresh).events =
        [.gpioConfigure 5 0 true true, .readClock 5000, .timerDisarm, .timerArm 1000000,
          .respond { status := .ok, data := 5 }] ∧
      (initOn example1000 5 fresh).last = 5000 ∧
      (initOn example1000 5 fresh).next = 0x412EAB9000000000 ∧
      readPin (initOn example1000 5 fresh).reg 5 = true := by decide +kernel

/-- V17. -/
theorem test_init_refused :
    (initOn example1000 6 fresh).events =
        [.gpioConfigure 6 0 true false, .respond { status := .gpioConfigFailed, data := 0 }] ∧
      (initOn example1000 6 fresh).run = false ∧ (initOn example1000 6 fresh).reg = fresh.reg := by
  decide +kernel

/-- V20. -/
theorem test_start :
    seen (exec (.start 4) fresh) (fun t => (readPin t.reg 4, t.run, t.armed, readPin t.dir 4)) =
      some (true, false, false, false) := by decide

/-- V21. -/
theorem test_stop :
    seen (exec (.stop 5) { running 0x80 0x40 0 0 0 with lvl := writePin fresh.lvl 5 true })
        (fun t => (readPin t.reg 5, readPin t.lvl 5, readPin t.acc 5)) =
      some (false, true, 0x40) := by decide

/-- V24, first command. -/
theorem test_setsp :
    seen (exec (.setsp 7 200) fresh) (fun t => (readPin t.sp 7, readPin t.reg 7, t.events)) =
      some (0xC8, false, [.respond { status := .ok, data := 0 }]) := by decide

/-- P1, input 7. -/
theorem test_getsp :
    seen (exec (.getsp 5) (running 0x80 0 0 0 0)) (fun t => (t.events, readPin t.sp 5)) =
      some ([.respond { status := .ok, data := 0x80 }], 0x80) := by decide

/-- V27. -/
theorem test_tick :
    (tickOn example1000 (running 0x80 0 5000 0x412EAB9000000000 1005012)).events =
        [.gpioSetLevel 5 false, .readClock 1005012, .timerDisarm, .timerArm 988] ∧
      (tickOn example1000 (running 0x80 0 5000 0x412EAB9000000000 1005012)).next =
        0x412EB36000000000 := by decide +kernel

/-- V31, with an occupied slot as in the example of R100. -/
theorem test_tick_wrap :
    (tickOn example1000 (running 0x80 0x80 2147483510 0x41E000006A800000 0x80000357)).events =
        [.gpioSetLevel 5 true, .readClock 0x80000357, .timerDisarm, .timerArm 997] ∧
      (tickOn example1000 (running 0x80 0x80 2147483510 0x41E000006A800000 0x80000357)).next =
        0x409CF00000000000 ∧
      (tickOn example1000 (running 0x80 0x80 2147483510 0x41E000006A800000 0x80000357)).last = 855 ∧
      readPin (tickOn example1000
        (running 0x80 0x80 2147483510 0x41E000006A800000 0x80000357)).acc 5 = 0 := by
  decide +kernel

/-- R210: a tick abandoned after its second call: both calls were seen, the timer was not touched, and the
registers are at their reset values. -/
theorem test_reset_inside_tick :
    let s := { running 0x80 0x80 5000 0x412EAB9000000000 1005012 with fire := true, rst := some 2 }
    seen (step s) (fun t => (t.events, readPin t.acc 5, readPin t.reg 5)) =
        some ([.gpioSetLevel 5 true, .readClock 1005012], 0, false) ∧
      seen (step s) (fun t => (t.run, t.armed, t.fire, t.rst)) = some (false, false, false, none) := by
  decide +kernel

/-! ### Shared operations -/

/-- `TIME_DELTA` of the example platform with `F = 1000` and `F = 2048`: 1000.0 and 488.28125 (P3, P4); on
a tie the even neighbour, here 2^29 (D17). -/
theorem test_timeDelta :
    example1000.timeDelta = 0x408F400000000000 ∧ example2048.timeDelta = 0x407E848000000000 ∧
      exampleTie.timeDelta = 0x41C0000000000000 := by decide +kernel

/-- V3, V4, V5. -/
theorem test_modStep :
    modStep 0x80 0x80 = (true, 0) ∧ modStep 0x7F 0x80 = (false, 0xFF) ∧
      modStep 0xFF 0xFF = (true, 0xFE) := by decide

/-- The sequence of s = 77 from a = 0, and the accumulators of s = 255 from a = 1. -/
theorem test_modulator_sequence :
    modLevels 0 77 16 =
        [false, false, false, true, false, false, true, false, false, true, false, false, false, true,
          false, false] ∧
      (List.range 4).map (fun n => modAcc 1 255 (n + 1)) = [0x00, 0xFF, 0xFE, 0xFD] := by decide

/-- The rounding vectors after V35. -/
theorem test_roundInt :
    Binary64.roundInt 0x412EC18900000000 = 1007813 ∧ Binary64.roundInt 0x412E8C2120000000 = 1000977 ∧
      Binary64.roundInt 0xC020000000000000 = -8 ∧ Binary64.roundInt 0xC004000000000000 = -3 ∧
      Binary64.roundInt 0x4004000000000000 = 3 := by decide +kernel

/-- V32: 2147483640.0 - 2^31 = -8.0, then 992.0. -/
theorem test_add :
    Binary64.add 0x41DFFFFFFE000000 (Binary64.ofInt (-2147483648)) = 0xC020000000000000 ∧
      Binary64.add 0xC020000000000000 0x408F400000000000 = 0x408F000000000000 := by decide +kernel

/-- R124: 2^53 + 1 lies halfway and goes to the even neighbour. -/
theorem test_add_ties_to_even :
    Binary64.add 0x4340000000000000 0x3FF0000000000000 = 0x4340000000000000 := by decide +kernel

/-- R126: the low 32 bits of a negative delay (V35). -/
theorem test_timerArm_negative :
    (timerArm (-2147481547) fresh).events = [.timerArm 0x80000835] := by decide

/-- R62. -/
theorem test_response_word :
    Response.word ⟨.gpioConfigFailed, 0⟩ = 0x100 ∧ Response.word ⟨.ok, 0x80⟩ = 0x080 := by decide

/-- The table's words run as the first instruction after reset. -/
theorem test_withFetchWord_init :
    step (State.reset.withFetchWord 16 0x1500) =
      exec (.init 5) { State.reset with rst := none, ph := .idle, fire := false, cmd := none } := rfl

theorem test_withFetchWord_tick :
    step (State.reset.withFetchWord 8 1) =
      exec .tick { State.reset with rst := none, ph := .idle, fire := false, armed := true } := rfl

/-! ### Witnesses: steps -/

/-- For StepRunsThePresentedInstruction. -/
theorem witness_presented_word :
    let s := { State.reset with cmd := some 0x4580 }
    s.rst = none ∧ s.ph = .idle ∧ s.fire = false ∧ s.cmd = some 0x4580 ∧
      decode (.host 0x4580) = .ok (.setsp 5 0x80) := ⟨rfl, rfl, rfl, rfl, by decide⟩

/-- For StepTakesTheExpiryBeforeACommand, with a command waiting: an expiry that is accepted, and one while
`ARMED` is 0. -/
theorem witness_expiry_and_command :
    let s := { running 0x80 0 0 0 0 with fire := true, cmd := some 0x5500 }
    let t := { State.reset with fire := true, cmd := some 0x5500 }
    (s.rst = none ∧ s.ph = .idle ∧ s.fire = true ∧ s.armed = true ∧ s.cmd = some 0x5500) ∧
      (t.rst = none ∧ t.ph = .idle ∧ t.fire = true ∧ t.armed = false ∧ t.cmd = some 0x5500) :=
  ⟨⟨rfl, rfl, rfl, rfl, rfl⟩, ⟨rfl, rfl, rfl, rfl, rfl⟩⟩

/-- For StepAnswersAnIllegalWord, an illegal `op` and an illegal immediate. -/
theorem witness_illegal_words :
    let s := { State.reset with cmd := some 0x6000 }
    let t := { State.reset with cmd := some 0x1501 }
    (s.rst = none ∧ s.ph = .idle ∧ s.fire = false ∧ s.cmd = some 0x6000 ∧
        WellFormed.legalWord 0x6000 = false) ∧
      (t.rst = none ∧ t.ph = .idle ∧ t.fire = false ∧ t.cmd = some 0x1501 ∧
        WellFormed.legalWord 0x1501 = false) :=
  ⟨⟨rfl, rfl, rfl, rfl, by decide⟩, ⟨rfl, rfl, rfl, rfl, by decide⟩⟩

/-- For StepLetsTheNextInputArrive, each clause. -/
theorem witness_next_input :
    let s := { State.reset with inputs := [shows (some 0x1500) true 7, resets] }
    (State.reset.rst = none ∧ State.reset.ph = .idle ∧ State.reset.fire = false ∧
        State.reset.cmd = none ∧ State.reset.inputs = []) ∧
      (s.rst = none ∧ s.ph = .idle ∧ s.fire = false ∧ s.cmd = none ∧
        s.inputs = shows (some 0x1500) true 7 :: [resets]) :=
  ⟨⟨rfl, rfl, rfl, rfl, rfl⟩, ⟨rfl, rfl, rfl, rfl, rfl⟩⟩

/-- For ResetInputRestoresTheRegisters and ResetAbandonsTheOperationInProgress: a reset between operations,
one that abandons a tick after its first call, and one inside a tick that the state already shows. -/
theorem witness_reset :
    { running 0x80 0x40 1 2 3 with rst := some 0 }.rst = some 0 ∧
      { running 0x80 0x40 1 2 3 with fire := true, rst := some 1 }.rst = some 1 ∧
      { running 0x80 0x40 1 2 3 with ph := .scan 5, rst := some 1 }.rst = some 1 := ⟨rfl, rfl, rfl⟩

/-- For CommandIsTakenExactlyWhenReady: ready; not ready beside an expiry that is accepted, beside one while
`ARMED` is 0, and inside a tick. -/
theorem witness_ready :
    let s := { running 0x80 0 0 0 0 with cmd := some 0x5500 }
    let t := { s with fire := true }
    let u := { State.reset with cmd := some 0x5500, fire := true }
    let v := { s with ph := .scan 3 }
    (s.rst = none ∧ s.cmd = some 0x5500 ∧ (∃ x, step s = .next x) ∧ cmdReady s = true) ∧
      (t.rst = none ∧ t.cmd = some 0x5500 ∧ (∃ x, step t = .next x) ∧ t.armed = true ∧
        cmdReady t = false) ∧
      (u.rst = none ∧ u.cmd = some 0x5500 ∧ (∃ x, step u = .next x) ∧ u.armed = false ∧
        cmdReady u = false) ∧
      (v.rst = none ∧ v.cmd = some 0x5500 ∧ (∃ x, step v = .next x) ∧ v.ph = .scan 3 ∧
        cmdReady v = false) :=
  ⟨⟨rfl, rfl, perform_next _, rfl⟩, ⟨rfl, rfl, perform_next _, rfl, rfl⟩,
    ⟨rfl, rfl, perform_next _, rfl, rfl⟩, ⟨rfl, rfl, perform_next _, rfl, rfl⟩⟩

/-! ### Witnesses: commands -/

/-- For the first clause of StopIsIdempotent, at both ends of the pin range. -/
theorem witness_empty_slot :
    readPin State.reset.reg 0 = false ∧ readPin State.reset.reg 15 = false := ⟨rfl, rfl⟩

/-- For RefusedInitChangesNoRegister, at both ends of the refused pins. -/
theorem witness_refused_pin :
    example1000.pinOk 6 = false ∧ example1000.pinOk 11 = false := by decide

/-- For OnlyTheFirstSuccessfulInitArmsTheTimer, both clauses, and for SuccessfulInitCreatesTheChannelAfresh
with another pin. -/
theorem witness_accepted_pin :
    example1000.pinOk 0 = true ∧ fresh.run = false ∧ (running 0x80 0 0 0 0).run = true ∧
      (15 : Pin) ≠ 0 := by decide

/-- For LifecycleTransitions, every clause. -/
theorem witness_lifecycle :
    (∃ t, exec (.start 0) State.reset = .next t) ∧ (∃ t, exec (.stop 0) State.reset = .next t) ∧
      (∃ t, exec (.setsp 0 255) State.reset = .next t) ∧
      (∃ t, exec (.getsp 0) State.reset = .next t) ∧ (∃ t, exec .tick State.reset = .next t) ∧
      (∃ t, exec (.init 0) State.reset = .next t) ∧ (15 : Pin) ≠ 0 :=
  ⟨⟨_, rfl⟩, ⟨_, rfl⟩, ⟨_, rfl⟩, ⟨_, rfl⟩, ⟨_, rfl⟩, ⟨_, rfl⟩, by decide⟩

/-- For OneResponsePerCommand, GpioCallsAndTheirEffect and EachRegisterHasItsWriters: a tick, with empty
slots at both ends of the range, an `INIT` while `RUN` is 0 and one while it is 1, and a command that is
none of these; `START` and `STOP` of one pin and every clause about another. -/
theorem witness_exec_next :
    (∃ t, exec .tick (running 0x80 0x80 0 0 0) = .next t ∧
        readPin (running 0x80 0x80 0 0 0).reg 0 = false ∧
        readPin (running 0x80 0x80 0 0 0).reg 15 = false) ∧
      (∃ t, exec (.init 5) State.reset = .next t) ∧
      (∃ t, exec (.init 5) (running 0x80 0x80 0 0 0) = .next t ∧
        (running 0x80 0x80 0 0 0).run = true ∧ Instr.init 5 ≠ .tick) ∧
      (∃ t, exec (.setsp 15 255) State.reset = .next t ∧ Instr.setsp 15 255 ≠ .tick ∧
        ∀ p, Instr.setsp 15 255 ≠ .init p ∧ Instr.setsp 15 255 ≠ .start p ∧
          Instr.setsp 15 255 ≠ .stop p) ∧
      (∃ t, exec (.stop 0) State.reset = .next t ∧ Instr.stop 0 ≠ .init 15 ∧
        Instr.stop 0 ≠ .start 15 ∧ Instr.stop 0 ≠ .stop 15 ∧ Instr.stop 0 ≠ .tick ∧
        ∀ v, Instr.stop 0 ≠ .setsp 15 v) :=
  ⟨⟨_, rfl, by decide⟩, ⟨_, rfl⟩, ⟨_, rfl, by decide⟩, ⟨_, rfl, by decide, by decide⟩,
    ⟨_, rfl, by decide, by decide, by decide, by decide, by decide⟩⟩

/-- For the last clause of DecodingProcedureAndItsInverse. -/
theorem witness_decoded_word : decode (.host 0x4FFF) = .ok (.setsp 15 255) := by decide

/-! ### Witnesses: the modulator and the tick -/

/-- For SlotIsTheModulatorStep, at both ends of the accumulator's range. -/
theorem witness_masked_accumulator :
    (readPin (running 0 255 0 0 0).acc 5).toNat = 255 ∧ (readPin fresh.acc 0).toNat = 0 := by decide

/-- For HighTicksAreEvenlySpread: the high ticks 2 and 4 and the low ticks 1 and 3 of s = 128, the least
setpoint of the second clause; the high ticks 2 and 3 of s = 255; the high ticks 1 and 257 of s = 1 from
255. -/
theorem witness_even_spread :
    (modLevel 0 128 2 = true ∧ modLevel 0 128 4 = true ∧
        ∀ k < 4, 2 < k → modLevel 0 128 k = false) ∧
      (modLevel 0 128 1 = false ∧ modLevel 0 128 3 = false ∧
        ∀ k < 3, 1 < k → modLevel 0 128 k = true) ∧
      (modLevel 0 255 2 = true ∧ modLevel 0 255 3 = true ∧
        ∀ k < 3, 2 < k → modLevel 0 255 k = false) ∧
      (modLevel 255 1 1 = true ∧ modLevel 255 1 257 = true ∧
        ∀ k < 257, 1 < k → modLevel 255 1 k = false) := by decide +kernel

/-- For ModulatorCornerCases and SequencerPhasePath, at the ends of their ranges. -/
theorem witness_tick_numbers :
    (1 ≤ 1 ∧ 1 ≤ 256) ∧ (0 ≤ 16 ∧ 16 ≤ 16) ∧ Phase.rearm.code = Phase.rearm.code := by decide

/-- For TickEffect and for IdleLevelRecipe, with the greatest accumulator. -/
theorem witness_accepted_expiry :
    let s := running 0x80 255 5000 0x412EAB9000000000 1005012
    s.armed = true ∧ s.ph = .idle ∧ readPin s.reg 5 = true ∧ (readPin s.acc 5).toNat < 256 := by
  decide

/-- For SpuriousExpiryIsIgnored. -/
theorem witness_not_armed : State.reset.armed = false := rfl

/-! ### Witnesses: numbers -/

/-- For OfIntIsExactBelow53Bits, at both ends. -/
theorem witness_integer_range :
    (9007199254740991 : Int).natAbs < 2 ^ 53 ∧ (-9007199254740991 : Int).natAbs < 2 ^ 53 := by decide

/-- For SumIsNearestTiesToEven: 2^53 + 1, halfway between 2^53 and 2^53 + 2, and both hypotheses on z. -/
theorem witness_sum_on_a_tie :
    let a : NUM := 0x4340000000000000
    let b : NUM := 0x3FF0000000000000
    let z : NUM := 0x4340000000000001
    Binary64.isFinite a = true ∧ Binary64.isFinite b = true ∧ Binary64.isFinite z = true ∧
      (Binary64.scaled a + Binary64.scaled b).natAbs < 2 ^ 1023 * Binary64.oneUnit ∧
      (Binary64.scaled (Binary64.add a b) - (Binary64.scaled a + Binary64.scaled b)).natAbs =
        (Binary64.scaled z - (Binary64.scaled a + Binary64.scaled b)).natAbs ∧
      Binary64.scaled z ≠ Binary64.scaled (Binary64.add a b) := by decide +kernel

/-- For SumErrorBelowDeadlineRange: 2^32 - 1 and 0.5. -/
theorem witness_sum_below_2_to_32 :
    let a : NUM := 0x41EFFFFFFFE00000
    let b : NUM := 0x3FE0000000000000
    Binary64.isFinite a = true ∧ Binary64.isFinite b = true ∧
      (Binary64.scaled a + Binary64.scaled b).natAbs < 2 ^ 32 * Binary64.oneUnit := by decide +kernel

/-- For WrapAdjustmentIsExact, at both ends of the range. -/
theorem witness_wrap_range :
    let x : NUM := 0x41D0000000000000
    let y : NUM := 0x41F0000000000000
    (Binary64.isFinite x = true ∧ 2 ^ 30 * Binary64.oneUnit ≤ Binary64.scaled x ∧
        Binary64.scaled x ≤ 2 ^ 32 * Binary64.oneUnit) ∧
      (Binary64.isFinite y = true ∧ 2 ^ 30 * Binary64.oneUnit ≤ Binary64.scaled y ∧
        Binary64.scaled y ≤ 2 ^ 32 * Binary64.oneUnit) := by decide +kernel

/-- For RoundIntIsNearestTiesAway: the tie -2.5. -/
theorem witness_rounding_tie :
    let x : NUM := 0xC004000000000000
    Binary64.isFinite x = true ∧
      2 * (Binary64.roundInt x * Binary64.oneUnit - Binary64.scaled x).natAbs = Binary64.oneUnit := by
  decide +kernel

/-- For RearmCallsAndTheDelayPort, at both ends of the signed range. -/
theorem witness_delay_range :
    ((-2147483648 : Int) ≤ -2147483648 ∧ (-2147483648 : Int) < 2147483648) ∧
      ((-2147483648 : Int) ≤ 2147483647 ∧ (2147483647 : Int) < 2147483648) := by decide

/-- For WraparoundLaw: V31, whose readings 2147483510 and 2^31 + 855 lie on both sides of a wrap. -/
theorem witness_wrap :
    let s := running 0x80 0 2147483510 0x41E000006A800000 0x80000357
    example1000.num = Binary64.numerics ∧ expiryAccepted s = true ∧
      2147483510 ≤ 2147484503 ∧ 2147484503 - 2147483510 < 2147483648 ∧
      s.last.toNat = 2147483510 % 2147483648 ∧
      s.clk.toNat % 2147483648 = 2147484503 % 2147483648 ∧ tickExact example1000 s.clk s := by
  refine ⟨rfl, by decide, by decide, by decide, by decide, by decide, ?_⟩
  unfold tickExact sumExact
  decide +kernel

/-- For WraparoundLaw with the readings 1 and 2^31, as far apart as it allows. -/
theorem witness_longest_wrap :
    let s := running 0x80 0 1 0x3FF0000000000000 0x80000000
    expiryAccepted s = true ∧ 1 ≤ 2147483648 ∧ 2147483648 - 1 < 2147483648 ∧
      s.last.toNat = 1 % 2147483648 ∧ s.clk.toNat % 2147483648 = 2147483648 % 2147483648 ∧
      tickExact example1000 s.clk s := by
  refine ⟨by decide, by decide, by decide, by decide, by decide, ?_⟩
  unfold tickExact sumExact
  decide +kernel

/-- For WraparoundLaw without a wrap, and with the reading unchanged (V33). -/
theorem witness_no_wrap :
    let s := running 0x80 0 700 0x409A900000000000 700
    expiryAccepted s = true ∧ s.last.toNat = 700 % 2147483648 ∧
      s.clk.toNat % 2147483648 = 700 % 2147483648 ∧ tickExact example1000 s.clk s := by
  refine ⟨by decide, by decide, by decide, ?_⟩
  unfold tickExact sumExact
  decide +kernel

/-- For WraparoundLaw with `NEXT` still below 0 after the wrap, and no tie. -/
theorem witness_negative_deadline :
    let s := running 0x80 0 2147483510 0x409A900000000000 0x80000357
    let next := (tickOn example1000 s).next
    let deadline := Binary64.scaled next + (2147484503 / 2147483648 : Nat) *
      (2147483648 * Binary64.oneUnit)
    let delay := Binary64.roundInt next - (2147484503 % 2147483648 : Nat)
    expiryAccepted s = true ∧ tickExact example1000 s.clk s ∧ Binary64.scaled next < 0 ∧
      2 * (delay * Binary64.oneUnit - (deadline - (2147484503 : Nat) * Binary64.oneUnit)).natAbs ≠
        Binary64.oneUnit := by
  refine ⟨by decide, ?_, by decide +kernel, by decide +kernel⟩
  unfold tickExact sumExact
  decide +kernel

/-- For TimeDeltaIsUpsOverF: a neighbour that is as near to `UPS / F` as `TIME_DELTA`, and one that is not. -/
theorem witness_time_delta :
    let exact : Int := (exampleTie.ups * exampleTie.f.den : Nat) * Binary64.oneUnit
    let error := fun x : NUM => (Binary64.scaled x * (exampleTie.f.num : Nat) - exact).natAbs
    exampleTie.num = Binary64.numerics ∧
      (Binary64.isFinite 0x41C0000000000001 = true ∧
        error exampleTie.timeDelta = error 0x41C0000000000001 ∧
        Binary64.scaled 0x41C0000000000001 ≠ Binary64.scaled exampleTie.timeDelta) ∧
      (Binary64.isFinite 0x41C0000000000002 = true ∧
        error exampleTie.timeDelta ≠ error 0x41C0000000000002) := by
  refine ⟨rfl, ?_⟩
  decide +kernel

/-- For DriftCompensationLaw: P4 up to its second tick. -/
theorem witness_drift :
    let s := { fresh with clk := 0 }
    example2048.num = Binary64.numerics ∧ example2048.pinOk 0 = true ∧ s.run = false ∧
      s.ph = .idle ∧ ticksExact example2048 [1000000, 1000488] (initOn example2048 0 s) := by
  refine ⟨rfl, by decide, rfl, rfl, ?_⟩
  unfold ticksExact ticksExact ticksExact tickExact sumExact
  decide +kernel

/-- For DriftCompensationLaw across a wrap: P3, inputs 3 and 5 to 6. -/
theorem witness_drift_wrap :
    let s := { fresh with clk := 2146483000 }
    example1000.pinOk 0 = true ∧ s.run = false ∧ s.ph = .idle ∧
      ticksExact example1000 [2147483010, 0x8000016D] (initOn example1000 0 s) ∧
      wrapCount [2147483010, 0x8000016D] (maskClock s.clk) = 1 := by
  refine ⟨by decide, rfl, rfl, ?_, by decide⟩
  unfold ticksExact ticksExact ticksExact tickExact sumExact
  decide +kernel

/-! ### Witnesses: runs -/

/-- The deadline 1005000.0 is bounded. -/
theorem deadlineBounded_example : deadlineBounded 0x412EAB9000000000 := by
  unfold deadlineBounded
  decide +kernel

theorem deadlineBounded_zero : deadlineBounded 0 := by
  unfold deadlineBounded
  decide +kernel

/-- A running state in which the invariant holds. -/
theorem inv_running : Inv (running 0x80 255 5000 0x412EAB9000000000 1005012) where
  accMasked := by decide
  seqIdle := rfl
  armedWhenRunning := rfl
  outputsConfigured := by
    intro p hp
    exact absurd hp (by revert p; decide)
  timingAtRest := by decide
  deadlineFinite := deadlineBounded_example

/-- A state before the first `INIT` in which the invariant holds. -/
theorem inv_fresh : Inv fresh where
  accMasked := by decide
  seqIdle := rfl
  armedWhenRunning := rfl
  outputsConfigured := by
    intro p hp
    exact absurd hp (by revert p; decide)
  timingAtRest := by decide
  deadlineFinite := deadlineBounded_zero

/-- For EveryStepKeepsTheInvariant: a step that runs a tick. -/
theorem witness_invariant_step :
    let s := { running 0x80 255 5000 0x412EAB9000000000 1005012 with fire := true }
    Inv s ∧ ∃ t, StepsTo s t :=
  ⟨⟨inv_running.1, rfl, rfl, inv_running.4, inv_running.5, inv_running.6⟩, perform_next _⟩

/-- For SchedulerNeverStops: two steps, of which the second stops the last channel. -/
theorem witness_scheduler_run :
    let s := { running 0x80 255 5000 0x412EAB9000000000 1005012 with
      inputs := [shows (some 0x3500) false 0] }
    Inv s ∧ noResetAhead s ∧ s.run = true ∧ ∃ t, RunsTo 2 s t :=
  ⟨⟨inv_running.1, rfl, rfl, inv_running.4, inv_running.5, inv_running.6⟩,
    by unfold noResetAhead; decide, rfl, runsTo_exists 2 _⟩

/-- For NoTickBeforeTheFirstSuccessfulInit: `START 4` and a spurious expiry after it (V20). -/
theorem witness_no_tick_run :
    let s := { fresh with inputs := [shows (some 0x2400) false 0, shows none true 9] }
    Inv s ∧ noResetAhead s ∧ ∃ t, RunsTo 4 s t ∧ t.run = false :=
  ⟨⟨inv_fresh.1, rfl, rfl, inv_fresh.4, inv_fresh.5, inv_fresh.6⟩,
    by unfold noResetAhead; decide, _, rfl, rfl⟩

/-- For ChannelsAreIsolated: another channel and the clock differ; both take a tick, or both a reset between
operations. -/
theorem witness_agreement :
    let s := { running 0x80 0x40 0 0 0 with fire := true }
    let t := { running 0x80 0x40 3 0 7 with fire := true, sp := writePin s.sp 12 0xC0 }
    let s' := { s with rst := some 0 }
    let t' := { t with rst := some 0 }
    ((∀ k, s.rst = some k → k = 0) ∧ AgreeOn 5 s t ∧ (∃ u, StepsTo s u) ∧ ∃ u, StepsTo t u) ∧
      ((∀ k, s'.rst = some k → k = 0) ∧ AgreeOn 5 s' t' ∧ (∃ u, StepsTo s' u) ∧
        ∃ u, StepsTo t' u) :=
  ⟨⟨nofun, ⟨rfl, rfl, rfl, rfl, rfl, rfl, rfl, rfl, rfl, rfl, rfl, rfl, rfl, rfl⟩,
      perform_next _, perform_next _⟩,
    ⟨fun _ h => (Option.some.inj h).symm,
      ⟨rfl, rfl, rfl, rfl, rfl, rfl, rfl, rfl, rfl, rfl, rfl, rfl, rfl, rfl⟩,
      perform_next _, perform_next _⟩⟩

/-- An expiry arrives and is taken: two steps, one more level on the pin of an occupied slot. -/
theorem two_steps_of_a_tick (p : Pin) (rest : List Input) (s : State) (hr : readPin s.reg p = true)
    (ha : s.armed = true) (hp : s.ph = .idle) (hf : s.fire = false) (hc : s.cmd = none)
    (hi : s.inputs = shows none true 0 :: rest) (hs : s.rst = none) :
    ∃ u new, (∀ k t, RunsTo k u t → RunsTo (k + 2) s t) ∧ u.events = s.events ++ new ∧
      (levelsOf p new).length = 1 ∧ readPin u.reg p = true ∧ u.armed = true ∧ u.ph = .idle ∧
      u.fire = false ∧ u.cmd = none ∧ u.inputs = rest ∧ u.rst = none := by
  let v : State := { s with cmd := none, fire := true, clk := 0, rst := none, inputs := rest }
  let w : State := { v with fire := false }
  have h1 : step s = .next v := by rw [step_takeNext hs, takeNext_idle platform hp hf, hc, hi]; rfl
  have h2 : step v = .next (tickOn platform w) := by
    rw [step_takeNext (s := v) rfl, takeNext_expiry platform (s := v) hp rfl]; rfl
  have h3 := tickOn_accepted platform (s := w) ha hp
  have hl := levelsOf_drives w p
  rw [show readPin w.reg p = true from hr, if_pos rfl] at hl
  have ht : (List.finRange 16).take 16 = List.finRange 16 := List.take_of_length_le (by simp)
  rw [h3, rearm_eq] at h2
  exact ⟨_, _, fun k t h => runsTo_step h1 (runsTo_step h2 h),
    by simp only [scanned, List.append_assoc]; rfl,
    by rw [ht, levelsOf_append, hl]; simp [Event.level?], hr, rfl, rfl, rfl, rfl, rfl, rfl⟩

/-- As many ticks as there are expiries to come drive as many levels. -/
theorem run_of_ticks (p : Pin) (n : Nat) : ∀ s : State, readPin s.reg p = true → s.armed = true →
    s.ph = .idle → s.fire = false → s.cmd = none →
    s.inputs = List.replicate n (shows none true 0) → s.rst = none →
    ∃ t new, RunsTo (2 * n) s t ∧ t.events = s.events ++ new ∧ (levelsOf p new).length = n := by
  induction n with
  | zero => exact fun s _ _ _ _ _ _ _ => ⟨s, [], rfl, (List.append_nil _).symm, rfl⟩
  | succ n ih =>
    intro s hr ha hp hf hc hi hs
    obtain ⟨u, new, hrun, he, hl, h1, h2, h3, h4, h5, h6, h7⟩ :=
      two_steps_of_a_tick p _ s hr ha hp hf hc hi hs
    obtain ⟨t, new', hrun', he', hl'⟩ := ih u h1 h2 h3 h4 h5 h6 h7
    refine ⟨t, new ++ new', hrun _ _ hrun', by rw [he', he, List.append_assoc], ?_⟩
    rw [levelsOf_append, List.length_append, hl, hl']
    omega

/-- For AccumulatorContinuity and DutyInEveryWindowOf256Ticks: 256 ticks of channel 5. -/
theorem witness_window :
    let s := { running 77 255 0 0 0 with inputs := List.replicate 256 (shows none true 0) }
    channelLeftAlone 5 s ∧ (readPin s.acc 5).toNat < 256 ∧
      ∃ t new, RunsTo 512 s t ∧ t.events = s.events ++ new ∧ 0 + 256 ≤ (levelsOf 5 new).length := by
  intro s
  refine ⟨⟨rfl, rfl, ?_⟩, by decide, ?_⟩
  · rw [List.any_eq_false]
    intro i hi
    rw [List.eq_of_mem_replicate hi]
    decide
  · obtain ⟨t, new, h1, h2, h3⟩ := run_of_ticks 5 256 s rfl rfl rfl rfl rfl rfl rfl
    exact ⟨t, new, h1, h2, h3.ge⟩

end Sys2Proof.Tests
end

section
/-! PROOF. The statements about numbers and the tick period: O37, O42, O43. -/

namespace Sys2Proof.Machine.Binary64

/-! ### Bit patterns in order -/

/-- The next bit pattern stands for the value one unit of the last place above. -/
theorem patternValue_succ (k : Nat) :
    patternValue (k + 1) = patternValue k + 2 ^ (k / 2 ^ 52 - 1) := by
  obtain ⟨e, he⟩ : ∃ e, e = k / 2 ^ 52 - 1 := ⟨_, rfl⟩
  have hval : ∀ j ≤ 1, patternValue (k + j) = (k - e * 2 ^ 52 + j) * 2 ^ e := by
    intro j hj
    rw [← patternValue_significand (by omega) (by omega)]
    congr 1
    omega
  have hk := hval 0 (Nat.zero_le 1)
  rw [Nat.add_zero, Nat.add_zero] at hk
  rw [hval 1 le_rfl, hk, ← he, Nat.add_mul, Nat.one_mul]

theorem patternValue_strictMono : StrictMono patternValue :=
  strictMono_nat_of_lt_succ fun k => by
    rw [patternValue_succ]
    exact Nat.lt_add_of_pos_right (Nat.two_pow_pos _)

theorem patternValue_zero : patternValue 0 = 0 := by decide

/-- A pattern with fraction 0 stands for a power of two. -/
theorem patternValue_powerOfTwo (e : Nat) : patternValue (e * 2 ^ 52 + 2 ^ 52) = 2 ^ (52 + e) := by
  rw [patternValue_significand (by omega) (.inr le_rfl), Nat.pow_add]

/-- The pattern that bounds `TIME_DELTA` stands for 2^30 (R17). -/
theorem patternValue_timeDeltaBound : patternValue timeDeltaBound = 2 ^ 30 * oneUnit := by
  rw [mul_oneUnit, show timeDeltaBound = 1052 * 2 ^ 52 + 2 ^ 52 by rfl, patternValue_powerOfTwo]

/-- A pattern without sign bit and below infinity is a finite number that is not negative. -/
theorem scaled_of_toNat_lt {x : NUM} (h : x.toNat < 2047 * 2 ^ 52) :
    isFinite x = true ∧ scaled x = patternValue x.toNat := by
  have hneg : negative x = false := by
    rw [negative_eq, decide_eq_false_iff_not]
    omega
  constructor
  · rw [isFinite, expField_eq, decide_eq_true_eq]
    omega
  · rw [scaled, hneg, magnitude_eq, Nat.mod_eq_of_lt (by omega), if_neg Bool.false_ne_true]

/-- A value is a multiple of 2^e, or it lies below the numbers whose last place is 2^e. -/
theorem patternValue_grid (k e : Nat) :
    2 ^ e ∣ patternValue k ∨ patternValue k < 2 ^ 52 * 2 ^ e := by
  unfold patternValue
  split
  · exact .inr (lt_of_lt_of_le (Nat.mod_lt _ (Nat.two_pow_pos _))
      (Nat.le_mul_of_pos_right _ (Nat.two_pow_pos _)))
  · rcases Nat.lt_or_ge (k / 2 ^ 52 - 1) e with he | he
    · right
      calc (2 ^ 52 + k % 2 ^ 52) * 2 ^ (k / 2 ^ 52 - 1)
          < 2 ^ 53 * 2 ^ (k / 2 ^ 52 - 1) :=
            Nat.mul_lt_mul_of_pos_right (by omega) (Nat.two_pow_pos _)
        _ = 2 ^ 52 * 2 ^ (k / 2 ^ 52 - 1 + 1) := by ring
        _ ≤ 2 ^ 52 * 2 ^ e := Nat.mul_le_mul_left _ (Nat.pow_le_pow_right (by omega) he)
    · exact .inl (Dvd.dvd.mul_left (Nat.pow_dvd_pow 2 he) _)

/-- The same with the sign; nothing lies off the multiples of the least last place, 2^0. -/
theorem scaled_grid (z : NUM) (e : Nat) :
    (∃ t : Int, scaled z = t * 2 ^ e) ∨ (0 < e ∧ (scaled z).natAbs < 2 ^ 52 * 2 ^ e) := by
  rcases Nat.eq_zero_or_pos e with rfl | he
  · exact .inl ⟨scaled z, (Int.mul_one _).symm⟩
  · rcases patternValue_grid (z.toNat % 2 ^ 63) e with h | h <;>
      rw [← magnitude_eq, ← natAbs_scaled] at h
    · obtain ⟨t, ht⟩ := Int.natCast_dvd.2 h
      exact .inl ⟨t, by rw [ht, Int.mul_comm]; push_cast; rfl⟩
    · exact .inr ⟨he, h⟩

/-! ### Rounding a ratio gives the nearest number -/

/-- Rounding the quotient `a`, remainder `r`, of a division by `w` gives the multiple of `w` nearest to
the dividend, the even one on a tie. -/
theorem nearest_multiple {w a r : Nat} (hr : r < w) (t : Int) :
    let q : Nat := a + if w < 2 * r ∨ (2 * r = w ∧ a % 2 = 1) then 1 else 0
    let error := fun u : Int => (u * w - (w * a + r : Nat)).natAbs
    error q ≤ error t ∧ (error q = error t → t ≠ q → q % 2 = 0) := by
  intro q error
  have ht : t * w ≤ w * a - w ∨ (t = a ∧ t * w = w * a) ∨ (t = a + 1 ∧ t * w = w * a + w) ∨
      w * a + 2 * w ≤ t * w := by
    rcases (by omega : t ≤ a - 1 ∨ t = a ∨ t = a + 1 ∨ a + 2 ≤ t) with h | h | h | h
    · exact .inl (by nlinarith)
    · exact .inr (.inl ⟨h, by rw [h, Int.mul_comm]⟩)
    · exact .inr (.inr (.inl ⟨h, by rw [h]; ring⟩))
    · exact .inr (.inr (.inr (by nlinarith)))
  simp only [error, q]
  generalize t * w = T at ht ⊢
  split <;>
  · push_cast
    rw [Int.add_mul, Int.mul_comm a]
    omega

/-- Of the multiples of its last place, the number chosen for `n / d` is nearest to it. The distances are
times `d`. -/
theorem quotientSig_nearest_multiple {n d : Nat} (hd : 0 < d) (t : Int) :
    let error := fun u : Int => (u * 2 ^ quotientExp n d * d - n).natAbs
    error (quotientSig n d) ≤ error t ∧
      (error (quotientSig n d) = error t → t ≠ quotientSig n d → quotientSig n d % 2 = 0) := by
  have hw : 0 < d * 2 ^ quotientExp n d := Nat.mul_pos hd (Nat.two_pow_pos _)
  have h := nearest_multiple (a := n / (d * 2 ^ quotientExp n d)) (Nat.mod_lt n hw) t
  have hcomm : ∀ u : Int, u * 2 ^ quotientExp n d * d = u * (d * 2 ^ quotientExp n d : Nat) := by
    intro u
    push_cast
    ring
  rw [Nat.div_add_mod] at h
  simp only [hcomm]
  exact h

/-- No binary64 is nearer to `n / d` than the number chosen for it, and the significand is even where
another is equally near: a number off the multiples of the last place lies below 2^52 of it, farther
away than that multiple. -/
theorem quotientSig_nearest {n d : Nat} (hd : 0 < d) (z : NUM) :
    let rounded : Int := quotientSig n d * 2 ^ quotientExp n d
    let error := fun x : Int => (x * d - n).natAbs
    error rounded ≤ error (scaled z) ∧
      (error rounded = error (scaled z) → scaled z ≠ rounded → quotientSig n d % 2 = 0) := by
  intro rounded error
  rcases scaled_grid z (quotientExp n d) with ⟨t, ht⟩ | ⟨hpos, hlow⟩
  · obtain ⟨hle, heven⟩ := quotientSig_nearest_multiple (n := n) hd t
    rw [ht]
    exact ⟨hle, fun he hne => heven he fun h => hne (congrArg (· * 2 ^ quotientExp n d) h)⟩
  · have hn : 2 ^ 52 * 2 ^ quotientExp n d * d ≤ n := by
      rw [Nat.mul_assoc, Nat.mul_comm _ d]
      exact (quotientExp_bounds hd).2 hpos
    have hz : (scaled z * d).natAbs < 2 ^ 52 * 2 ^ quotientExp n d * d := by
      rw [Int.natAbs_mul, Int.natAbs_natCast]
      exact Nat.mul_lt_mul_of_pos_right hlow hd
    have hfar : error (2 ^ 52 * 2 ^ quotientExp n d) < error (scaled z) := by
      have hcast : (2 ^ 52 * 2 ^ quotientExp n d * d : Int) =
          (2 ^ 52 * 2 ^ quotientExp n d * d : Nat) := by push_cast; rfl
      simp only [error, hcast]
      omega
    have hle : error rounded ≤ error (2 ^ 52 * 2 ^ quotientExp n d) :=
      (quotientSig_nearest_multiple hd (2 ^ 52)).1
    exact ⟨by omega, fun he => by omega⟩

theorem ofRatio_toNat {n d : Nat} (h : (ofRatio n d).toNat < 2047 * 2 ^ 52) :
    (ofRatio n d).toNat = quotientExp (n * oneUnit) d * 2 ^ 52 + quotientSig (n * oneUnit) d := by
  rw [ofRatio, roundQuotient_eq, BitVec.toNat_ofNat] at h ⊢
  omega

/-- R17: a quotient that does not overflow is rounded to nearest, ties to even. -/
theorem ofRatio_nearest {n d : Nat} (hd : 0 < d) (h : (ofRatio n d).toNat < 2047 * 2 ^ 52) (z : NUM) :
    let error := fun x : NUM => (scaled x * d - n * oneUnit).natAbs
    error (ofRatio n d) ≤ error z ∧
      (error (ofRatio n d) = error z → scaled z ≠ scaled (ofRatio n d) →
        (ofRatio n d).getLsbD 0 = false) := by
  have hbits := ofRatio_toNat h
  obtain ⟨-, -, hvalue⟩ := ofRatio_spec hd (hbits ▸ h)
  have hnear := quotientSig_nearest (n := n * oneUnit) hd z
  intro error
  simp only [error, hvalue]
  push_cast at hnear ⊢
  refine ⟨hnear.1, fun he hne => ?_⟩
  have heven := hnear.2 he hne
  rw [BitVec.getLsbD, hbits, Nat.testBit_zero, decide_eq_false_iff_not]
  omega

end Sys2Proof.Machine.Binary64

namespace Sys2Proof.Proofs
open Sys2Proof.Machine

/-- Settles O37: an integer below 2^53 in magnitude has at most 53 significant bits, so rounding keeps it. -/
theorem ofIntIsExactBelow53Bits : Obligations.OfIntIsExactBelow53Bits := by
  intro i hi
  have habs : (i * Binary64.oneUnit).natAbs = i.natAbs * Binary64.oneUnit := by
    rw [Int.natAbs_mul, Int.natAbs_natCast]
  have hbound : (i * Binary64.oneUnit).natAbs < 2 ^ 2097 := by
    have hlt := Nat.mul_lt_mul_of_pos_right hi Binary64.oneUnit_pos
    rw [Binary64.mul_oneUnit] at hlt
    rw [habs]
    refine hlt.trans ?_
    rw [Nat.pow_lt_pow_iff_right Nat.one_lt_two]
    omega
  exact ⟨(Binary64.roundScaled_spec hbound).1, Binary64.scaled_roundScaled_exact hbound
    (habs.trans (congrArg (i.natAbs * ·) Binary64.oneUnit_eq)) hi.le⟩

/-- Settles O42: values of patterns without sign are in the order of the patterns. -/
theorem timeDeltaIsInRange : Obligations.TimeDeltaIsInRange := by
  intro c
  obtain ⟨hpos, hlt⟩ : timeDeltaInRange c.timeDelta := c.timeDelta_range
  obtain ⟨hfin, hval⟩ := Binary64.scaled_of_toNat_lt (hlt.trans (by decide))
  have hlow := Binary64.patternValue_strictMono hpos
  have hhigh := Binary64.patternValue_strictMono hlt
  rw [Binary64.patternValue_zero] at hlow
  rw [Binary64.patternValue_timeDeltaBound] at hhigh
  rw [hval]
  exact ⟨hfin, by exact_mod_cast hlow, by exact_mod_cast hhigh⟩

/-- Settles O43: `TIME_DELTA` does not overflow, so it is the quotient rounded to nearest. -/
theorem timeDeltaIsUpsOverF : Obligations.TimeDeltaIsUpsOverF := by
  intro c z hnum _
  have htd : c.timeDelta = Binary64.ofRatio (c.ups * c.f.den) c.f.num := by
    rw [Config.timeDelta, quotientOf, hnum]
    rfl
  have hlt : c.timeDelta.toNat < timeDeltaBound := c.timeDelta_range.2
  rw [htd] at hlt ⊢
  exact Binary64.ofRatio_nearest c.f_positive.1 (hlt.trans (by decide)) z

end Sys2Proof.Proofs
end

section
/-! PROOF. The statements about the registers, the resets and the invariant: O12, O14, O35, O48, O49, O50,
O51, O52. First the layer they rest on: each instruction as one update of the state, and the bound of the
deadline. -/

namespace Sys2Proof.Machine

open Safety

/-! ### The registers after reset, the codes of the phases -/

/-- R25: the registers of every pin after a reset. -/
theorem readPin_afterReset (c : Config) (k : Nat) (clk : ClockSample) (inputs : List Input)
    (events : List Event) (p : Pin) :
    let t := State.afterReset c k clk inputs events
    readPin t.reg p = false ∧ readPin t.sp p = 0 ∧ readPin t.acc p = 0 ∧ readPin t.dir p = false ∧
      readPin t.lvl p = c.lvlReset k p := by
  simp [State.afterReset]

@[simp] theorem Phase.code_idle : Phase.idle.code.toNat = 31 := rfl

@[simp] theorem Phase.code_rearm : Phase.rearm.code.toNat = 16 := rfl

@[simp] theorem Phase.code_scan (i : Pin) : (Phase.scan i).code.toNat = i.val := by
  have := i.isLt
  simp only [Phase.code, BitVec.toNat_setWidth, BitVec.toNat_ofFin]
  omega

/-- R22: after n of the 16 visits PH is n. -/
theorem phaseOf_code {n : Nat} (h : n ≤ 16) : (phaseOf n).code.toNat = n := by
  unfold phaseOf
  split
  · exact Phase.code_scan _
  · rw [Phase.code_rearm]
    omega

/-- The phase as a function of its code. -/
theorem Phase.eq_of_code (ph : Phase) :
    ph = if ph.code.toNat = 31 then .idle else phaseOf ph.code.toNat := by
  cases ph with
  | idle => rfl
  | rearm => rfl
  | scan i =>
    have hi := i.isLt
    rw [code_scan, if_neg (by omega), phaseOf, dif_pos hi]

theorem Phase.code_injective {ph ph' : Phase} (h : ph.code = ph'.code) : ph = ph' := by
  rw [eq_of_code ph, h, ← eq_of_code ph']

/-! ### Each instruction as one update of the state -/

/-- R142: the platform refuses the pin. -/
theorem initOn_refused {c : Config} {p : Pin} (h : c.pinOk p = false) (s : State) :
    initOn c p s = { s with
      events := s.events ++ [.gpioConfigure p c.pullMode true false,
        .respond { status := .gpioConfigFailed, data := 0 }] } := by
  simp [initOn, h, gpioConfigure_eq, raise_eq, CommandException.status]

/-- R140: the platform accepts the pin and the scheduler runs. -/
theorem initOn_running {c : Config} {p : Pin} (h : c.pinOk p = true) {s : State} (hr : s.run = true) :
    initOn c p s = { s with
      dir := writePin s.dir p true
      sp := writePin s.sp p 0
      acc := writePin s.acc p 0
      reg := writePin s.reg p true
      events := s.events ++ [.gpioConfigure p c.pullMode true true,
        .respond { status := .ok, data := pinData p }] } := by
  simp [initOn, h, gpioConfigure_eq, initChannel_running, hr]

/-- R141: the first success, which arms the timer. -/
theorem initOn_first {c : Config} {p : Pin} (h : c.pinOk p = true) {s : State} (hr : s.run = false) :
    initOn c p s = { s with
      dir := writePin s.dir p true
      sp := writePin s.sp p 0
      acc := writePin s.acc p 0
      reg := writePin s.reg p true
      run := true
      last := maskClock s.clk
      next := c.num.ofInt ((maskClock s.clk).toNat + c.ups)
      armed := true
      events := s.events ++ [.gpioConfigure p c.pullMode true true, .readClock s.clk, .timerDisarm,
        .timerArm (BitVec.ofInt 32 c.ups), .respond { status := .ok, data := pinData p }] } := by
  simp [initOn, h, gpioConfigure_eq, initChannel_first, hr]

/-- R100 to R106, R127: the whole effect of an accepted expiry. -/
theorem tickOn_eq (c : Config) {s : State} (ha : s.armed = true) (hp : s.ph = .idle) :
    tickOn c s = { s with
      acc := Vector.ofFn fun p =>
        if readPin s.reg p then maskSum (slotSum (readPin s.acc p) (readPin s.sp p))
        else readPin s.acc p
      lvl := Vector.ofFn fun p =>
        if readPin s.reg p then carry (slotSum (readPin s.acc p) (readPin s.sp p))
        else readPin s.lvl p
      last := maskClock s.clk
      next := c.num.add (adjustedDeadline c (maskClock s.clk) s) c.timeDelta
      armed := true
      events := s.events ++ ((List.finRange 16).filterMap (driveOf s) ++
        [.readClock s.clk, .timerDisarm, .timerArm (BitVec.ofInt 32
          (c.num.roundInt (c.num.add (adjustedDeadline c (maskClock s.clk) s) c.timeDelta) -
            (maskClock s.clk).toNat))]) } := by
  have hall : (List.finRange 16).take 16 = List.finRange 16 := List.take_of_length_le (by simp)
  rw [tickOn_accepted c ha hp, rearm_eq]
  simp [scanned, hall, adjustedDeadline, hp]

theorem exec_init {p : Pin} {s t : State} (h : exec (.init p) s = .next t) :
    t = initOn platform p s := by
  cases h
  rfl

theorem exec_start {p : Pin} {s t : State} (h : exec (.start p) s = .next t) :
    t = { s with
      reg := writePin s.reg p true
      events := s.events ++ [.respond { status := .ok, data := 0 }] } := by
  cases h
  rfl

theorem exec_stop {p : Pin} {s t : State} (h : exec (.stop p) s = .next t) :
    t = { s with
      reg := writePin s.reg p false
      events := s.events ++ [.respond { status := .ok, data := 0 }] } := by
  cases h
  rfl

theorem exec_setsp {p : Pin} {v : Setpoint} {s t : State} (h : exec (.setsp p v) s = .next t) :
    t = { s with
      sp := writePin s.sp p v
      events := s.events ++ [.respond { status := .ok, data := 0 }] } := by
  cases h
  rfl

theorem exec_getsp {p : Pin} {s t : State} (h : exec (.getsp p) s = .next t) :
    t = { s with events := s.events ++ [.respond { status := .ok, data := readPin s.sp p }] } := by
  cases h
  rfl

theorem exec_tick {s t : State} (h : exec .tick s = .next t) : t = tickOn platform s := by
  cases h
  rfl

theorem readPin_writePin_ne {α : Type} (f : PerPin α) {p q : Pin} (x : α) (h : ¬p = q) :
    readPin (writePin f p x) q = readPin f q :=
  readPin_writePin_other f p q x (Ne.symm h)

/-! ### GPIO calls -/

/-- `new` holds the GPIO calls that instruction i may make in state s, and `LVL` and `DIR` of t are what
these calls make of those of s (R103, R160, R161). -/
def gpioCallsExplain (i : Instr) (s t : State) (new : List Event) : Prop :=
  (∀ p l, Event.gpioSetLevel p l ∈ new → i = .tick ∧ readPin s.reg p = true) ∧
    (∀ p m d ok, Event.gpioConfigure p m d ok ∈ new →
      i = .init p ∧ m = platform.pullMode ∧ d = true ∧ ok = platform.pinOk p) ∧
    (∀ p, readPin t.lvl p = ((levelsOf p new).getLast?).getD (readPin s.lvl p)) ∧
    (∀ p, readPin t.dir p = (readPin s.dir p ||
      decide (Event.gpioConfigure p platform.pullMode true true ∈ new)))

/-- An event is a call on the GPIO facility. -/
def Event.isGpioCall : Event → Bool
  | .gpioConfigure .. => true
  | .gpioSetLevel .. => true
  | _ => false

theorem levelsOf_of_no_gpioCall (p : Pin) {es : List Event}
    (h : ∀ e ∈ es, e.isGpioCall = false) : levelsOf p es = [] := by
  refine List.filterMap_eq_nil_iff.2 fun e he => ?_
  cases e with
  | gpioSetLevel q l => exact absurd (h _ he) Bool.noConfusion
  | _ => rfl

theorem gpioSetLevel_not_mem {es : List Event} (h : ∀ e ∈ es, e.isGpioCall = false) (p : Pin)
    (l : Bool) : .gpioSetLevel p l ∉ es :=
  fun hmem => Bool.noConfusion (h _ hmem)

theorem gpioConfigure_not_mem {es : List Event} (h : ∀ e ∈ es, e.isGpioCall = false) (p : Pin)
    (m : BitVec 2) (d ok : Bool) : .gpioConfigure p m d ok ∉ es :=
  fun hmem => Bool.noConfusion (h _ hmem)

/-- An instruction that makes no call on the GPIO facility. -/
theorem gpioCallsExplain_no_gpioCall (i : Instr) {s t : State} {new : List Event}
    (hlvl : t.lvl = s.lvl) (hdir : t.dir = s.dir) (hnew : ∀ e ∈ new, e.isGpioCall = false) :
    gpioCallsExplain i s t new := by
  simp [gpioCallsExplain, hlvl, hdir, gpioSetLevel_not_mem hnew, gpioConfigure_not_mem hnew,
    levelsOf_of_no_gpioCall _ hnew]

/-- The calls of `INIT p`: the configuration of p, whose success makes p an output, and none after it. -/
theorem gpioCallsExplain_init {p : Pin} {ok : Bool} (hok : platform.pinOk p = ok) {s t : State}
    {rest : List Event} (hlvl : t.lvl = s.lvl)
    (hdir : t.dir = if ok then writePin s.dir p true else s.dir)
    (hrest : ∀ e ∈ rest, e.isGpioCall = false) :
    gpioCallsExplain (.init p) s t (.gpioConfigure p platform.pullMode true ok :: rest) := by
  refine ⟨?_, ?_, ?_, ?_⟩
  · simp [gpioSetLevel_not_mem hrest]
  · intro q m d ok' h
    rw [List.mem_cons, or_iff_left (gpioConfigure_not_mem hrest q m d ok')] at h
    cases h
    exact ⟨rfl, rfl, rfl, hok.symm⟩
  · simp [hlvl, levelsOf_of_no_gpioCall _ hrest, Event.level?]
  · intro q
    rw [hdir]
    cases ok with
    | false => simp [gpioConfigure_not_mem hrest]
    | true => simp [gpioConfigure_not_mem hrest, readPin_writePin, Bool.or_comm]

/-- A tick drives the pins of occupied slots only (R101, R103). -/
theorem occupied_of_gpioSetLevel_mem_drives {s : State} {p : Pin} {l : Bool}
    (h : .gpioSetLevel p l ∈ (List.finRange 16).filterMap (driveOf s)) : readPin s.reg p = true := by
  obtain ⟨q, -, hq⟩ := List.mem_filterMap.1 h
  rw [driveOf, Option.ite_none_right_eq_some] at hq
  obtain ⟨hreg, he⟩ := hq
  cases he
  exact hreg

theorem gpioConfigure_not_mem_drives (s : State) (p : Pin) (m : BitVec 2) (d ok : Bool) :
    .gpioConfigure p m d ok ∉ (List.finRange 16).filterMap (driveOf s) := by
  simp only [List.mem_filterMap, driveOf, Option.ite_none_right_eq_some, Option.some.injEq,
    reduceCtorEq, and_false, exists_false, not_false_eq_true]

/-- The calls of an accepted expiry: one per occupied slot, and none after them. -/
theorem gpioCallsExplain_drives {s t : State} {rest : List Event}
    (hlvl : ∀ p, readPin t.lvl p =
      if readPin s.reg p then carry (slotSum (readPin s.acc p) (readPin s.sp p))
      else readPin s.lvl p)
    (hdir : t.dir = s.dir) (hrest : ∀ e ∈ rest, e.isGpioCall = false) :
    gpioCallsExplain .tick s t ((List.finRange 16).filterMap (driveOf s) ++ rest) := by
  have hconf (p m d ok) :
      .gpioConfigure p m d ok ∉ (List.finRange 16).filterMap (driveOf s) ++ rest :=
    List.not_mem_append (gpioConfigure_not_mem_drives s p m d ok)
      (gpioConfigure_not_mem hrest p m d ok)
  refine ⟨fun p l h => ⟨rfl, ?_⟩, fun p m d ok h => absurd h (hconf p m d ok), ?_, ?_⟩
  · exact occupied_of_gpioSetLevel_mem_drives
      ((List.mem_append.1 h).resolve_right (gpioSetLevel_not_mem hrest p l))
  · intro p
    rw [hlvl, levelsOf_append, levelsOf_drives, levelsOf_of_no_gpioCall p hrest, List.append_nil]
    cases readPin s.reg p <;> rfl
  · intro p
    rw [hdir, decide_eq_false (hconf p _ _ _), Bool.or_false]

/-! ### The bound of the deadline -/

/-- A number that exceeds `2^52 * 2^e` by at most half a place rounds to no more than that: below it the
places are finer, and the tie above it goes to the even neighbour. -/
theorem Binary64.round_le_of_le_half_above {n e : Nat} (he : 0 < e)
    (h : 2 * n ≤ 2 ^ e * (2 ^ 53 + 1)) :
    Binary64.roundSig n * 2 ^ Binary64.roundExp n ≤ 2 ^ 52 * 2 ^ e := by
  have hpow : 2 ^ e = 2 * 2 ^ (e - 1) := by rw [Nat.mul_comm, Nat.two_pow_pred_mul_two he]
  rcases Nat.lt_or_ge n (2 ^ 52 * 2 ^ e) with hn | hn
  · have hexp : Binary64.roundExp n ≤ e - 1 := by
      by_contra hc
      have hle : 2 ^ e ≤ 2 ^ Binary64.roundExp n := Nat.pow_le_pow_right (by omega) (by omega)
      have := (Binary64.roundExp_bounds (n := n) (by omega)).1
      omega
    calc Binary64.roundSig n * 2 ^ Binary64.roundExp n
        ≤ 2 ^ 53 * 2 ^ (e - 1) :=
          Nat.mul_le_mul (Binary64.roundSig_bounds n).1 (Nat.pow_le_pow_right (by omega) hexp)
      _ = 2 ^ 52 * 2 ^ e := by omega
  · have hpos : 0 < 2 ^ (e - 1) := Nat.two_pow_pos _
    have hexp : Binary64.roundExp n = e := by
      have hlog : Nat.log2 n = 52 + e := by
        rw [Nat.log2_eq_iff (by omega), Nat.add_right_comm, Nat.pow_add, Nat.pow_add]
        omega
      rw [Binary64.roundExp, hlog, Nat.add_sub_cancel_left]
    have hdiv : n / 2 ^ e = 2 ^ 52 := by
      rw [Nat.div_eq_iff (by omega)]
      omega
    have hmod := Nat.div_add_mod n (2 ^ e)
    rw [hdiv] at hmod
    rw [Binary64.roundSig, hexp, hdiv, if_neg (by omega), Nat.add_zero]

/-- Adding at most 2^31 leads no further than 2^84. -/
theorem deadlineBounded_add {x y : NUM} (hx : deadlineBounded x) (hy : Binary64.isFinite y = true)
    (hy' : (Binary64.scaled y).natAbs ≤ 2 ^ 31 * Binary64.oneUnit) :
    deadlineBounded (Binary64.add x y) := by
  obtain ⟨hfin, hmag⟩ := hx
  rw [← Binary64.natAbs_scaled] at hmag
  have hsum : (Binary64.scaled x + Binary64.scaled y).natAbs ≤
      2 ^ 84 * Binary64.oneUnit + 2 ^ 31 * Binary64.oneUnit := by omega
  have hlt : (Binary64.scaled x + Binary64.scaled y).natAbs < 2 ^ 2097 := by
    have hbig : 2 ^ 85 * Binary64.oneUnit < 2 ^ 2097 := by
      rw [Binary64.mul_oneUnit, Nat.pow_lt_pow_iff_right Nat.one_lt_two]
      omega
    refine lt_of_le_of_lt ?_ hbig
    omega
  obtain ⟨hfinite, hvalue⟩ := Binary64.add_spec hfin hy hlt
  refine ⟨hfinite, ?_⟩
  have hround := Binary64.round_le_of_le_half_above (e := 32 + 1074)
    (n := (Binary64.scaled x + Binary64.scaled y).natAbs) (by omega) (by
      rw [← Binary64.mul_oneUnit]
      omega)
  rw [← Binary64.mul_oneUnit] at hround
  rw [← Binary64.natAbs_scaled, hvalue]
  split <;> omega

theorem deadlineBounded_zero : deadlineBounded 0 := by
  refine ⟨by decide, ?_⟩
  rw [← Binary64.natAbs_scaled, Binary64.scaled_zero]
  exact Nat.zero_le _

/-- The first deadline is bounded. -/
theorem deadlineBounded_first (c : Config) (now : MaskedClock) :
    deadlineBounded (Binary64.ofInt (now.toNat + c.ups)) := by
  have hnow := now.isLt
  have hups := c.ups_range.2
  rw [wrapPeriod] at hups
  obtain ⟨hfin, hvalue⟩ :=
    Proofs.ofIntIsExactBelow53Bits ((now.toNat : Int) + c.ups) (by omega)
  refine ⟨hfin, ?_⟩
  rw [← Binary64.natAbs_scaled, hvalue, Int.natAbs_mul, Int.natAbs_natCast]
  exact Nat.mul_le_mul_right _ (by omega)

/-- The wrap adjustment keeps the bound. -/
theorem deadlineBounded_adjusted (now : MaskedClock) {s : State} (h : deadlineBounded s.next) :
    deadlineBounded (adjustedDeadline platform now s) := by
  unfold adjustedDeadline
  split
  · obtain ⟨hfin, hvalue⟩ := Proofs.ofIntIsExactBelow53Bits (-(wrapPeriod : Int)) (by decide)
    refine deadlineBounded_add h hfin (le_of_eq ?_)
    exact (congrArg Int.natAbs hvalue).trans (by rw [Int.natAbs_mul, Int.natAbs_natCast]; rfl)
  · exact h

/-- One period more keeps the bound. -/
theorem deadlineBounded_advance {x : NUM} (h : deadlineBounded x) :
    deadlineBounded (platform.num.add x platform.timeDelta) := by
  obtain ⟨hfin, hpos, hlt⟩ := Proofs.timeDeltaIsInRange platform
  exact deadlineBounded_add h hfin (by omega)

/-! ### The invariant -/

/-- The invariant speaks of seven registers only. -/
theorem inv_of_registers_eq {s t : State} (h : Inv s) (hacc : t.acc = s.acc) (hph : t.ph = s.ph)
    (harmed : t.armed = s.armed) (hrun : t.run = s.run) (hdir : t.dir = s.dir)
    (hlast : t.last = s.last) (hnext : t.next = s.next) : Inv t where
  accMasked := hacc ▸ h.accMasked
  seqIdle := hph.trans h.seqIdle
  armedWhenRunning := by rw [harmed, hrun, h.armedWhenRunning]
  outputsConfigured := by rw [hdir, hrun]; exact h.outputsConfigured
  timingAtRest := by rw [hrun, hlast, hnext]; exact h.timingAtRest
  deadlineFinite := hnext ▸ h.deadlineFinite

theorem inv_afterReset (c : Config) (k : Nat) (clk : ClockSample) (inputs : List Input)
    (events : List Event) : Inv (State.afterReset c k clk inputs events) where
  accMasked p := by simp [State.afterReset]
  seqIdle := rfl
  armedWhenRunning := rfl
  outputsConfigured p hp := by simp [State.afterReset] at hp
  timingAtRest _ := ⟨rfl, rfl⟩
  deadlineFinite := deadlineBounded_zero

theorem accMasked_write_zero {s : State} (h : Inv s) (p q : Pin) :
    (readPin (writePin s.acc p 0) q).toNat < 256 := by
  rw [readPin_writePin]
  split
  · decide
  · exact h.accMasked q

theorem inv_initOn (p : Pin) {s : State} (h : Inv s) : Inv (initOn platform p s) := by
  cases hok : platform.pinOk p with
  | false =>
    rw [initOn_refused hok]
    exact inv_of_registers_eq h rfl rfl rfl rfl rfl rfl rfl
  | true =>
    have hdir : ∀ q, readPin (writePin s.dir p true) q = true → platform.pinOk q = true := by
      intro q hq
      rw [readPin_writePin] at hq
      split at hq
      · rename_i e
        rw [e, hok]
      · exact (h.outputsConfigured q hq).1
    cases hrun : s.run with
    | true =>
      rw [initOn_running hok hrun]
      exact
        { accMasked := accMasked_write_zero h p
          seqIdle := h.seqIdle
          armedWhenRunning := h.armedWhenRunning
          outputsConfigured := fun q hq => ⟨hdir q hq, hrun⟩
          timingAtRest := h.timingAtRest
          deadlineFinite := h.deadlineFinite }
    | false =>
      rw [initOn_first hok hrun]
      exact
        { accMasked := accMasked_write_zero h p
          seqIdle := h.seqIdle
          armedWhenRunning := rfl
          outputsConfigured := fun q hq => ⟨hdir q hq, rfl⟩
          timingAtRest := nofun
          deadlineFinite := deadlineBounded_first platform _ }

theorem inv_tickOn {s : State} (h : Inv s) : Inv (tickOn platform s) := by
  rcases tickOn_accepted_or_same platform s with ⟨ha, hp⟩ | hsame
  · have hrun : s.run = true := h.armedWhenRunning ▸ ha
    rw [tickOn_eq platform ha hp]
    exact
      { accMasked := by
          intro p
          simp only [readPin_ofFn]
          split
          · exact maskSum_lt _ _
          · exact h.accMasked p
        seqIdle := hp
        armedWhenRunning := hrun.symm
        outputsConfigured := h.outputsConfigured
        timingAtRest := fun hstop => absurd hrun (Bool.eq_false_iff.1 hstop)
        deadlineFinite :=
          deadlineBounded_advance (deadlineBounded_adjusted _ h.deadlineFinite) }
  · rwa [hsame]

/-- Every instruction keeps the invariant. -/
theorem inv_exec {i : Instr} {s t : State} (h : Inv s) (he : exec i s = .next t) : Inv t := by
  cases i with
  | init p => exact exec_init he ▸ inv_initOn p h
  | tick => exact exec_tick he ▸ inv_tickOn h
  | start p => exact exec_start he ▸ inv_of_registers_eq h rfl rfl rfl rfl rfl rfl rfl
  | stop p => exact exec_stop he ▸ inv_of_registers_eq h rfl rfl rfl rfl rfl rfl rfl
  | setsp p v => exact exec_setsp he ▸ inv_of_registers_eq h rfl rfl rfl rfl rfl rfl rfl
  | getsp p => exact exec_getsp he ▸ inv_of_registers_eq h rfl rfl rfl rfl rfl rfl rfl

/-- Every transition that runs no instruction keeps the invariant. -/
theorem inv_otherStep {s t : State} (h : Inv s) (ho : OtherStep s t) : Inv t := by
  cases ho with
  | reset k _ =>
    obtain ⟨events, he⟩ := abandonAfter_registers platform k s
    exact he ▸ inv_afterReset _ _ _ _ _
  | sequencer _ hph => exact absurd h.seqIdle hph
  | illegal => exact inv_of_registers_eq h rfl rfl rfl rfl rfl rfl rfl
  | arrival => exact inv_of_registers_eq h rfl rfl rfl rfl rfl rfl rfl
  | rest => exact h

theorem inv_step {s t : State} (h : Inv s) (hs : StepsTo s t) : Inv t := by
  rcases step_cases hs with ⟨_, _, _, he⟩ | ⟨_, _, _, _, _, _, _, he⟩ | ho
  · exact inv_exec (s := { s with fire := false })
      (inv_of_registers_eq h rfl rfl rfl rfl rfl rfl rfl) he
  · exact inv_exec (s := { s with cmd := none })
      (inv_of_registers_eq h rfl rfl rfl rfl rfl rfl rfl) he
  · exact inv_otherStep h ho

/-- What every step keeps holds along every run. -/
theorem runsTo_invariant {P : State → Prop} (hstep : ∀ s t, P s → StepsTo s t → P t) {k : Nat}
    {s t : State} (hs : P s) (h : RunsTo k s t) : P t := by
  induction k generalizing s with
  | zero => exact runsTo_zero h ▸ hs
  | succ k ih =>
    obtain ⟨u, hu, hrun⟩ := runsTo_succ h
    exact ih (hstep s u hs hu) hrun

end Sys2Proof.Machine

namespace Sys2Proof.Proofs

open Sys2Proof.Machine Sys2Proof.Safety

/-- Settles O51: the timer runs only while `RUN` is 1, and rounding keeps the deadline within 2^84. -/
theorem everyStepKeepsTheInvariant : Obligations.EveryStepKeepsTheInvariant :=
  fun _ _ => inv_step

/-- Settles O50. -/
theorem invariantHoldsAtReset : Obligations.InvariantHoldsAtReset := inv_afterReset _ _ _ _ _

/-- Settles O14. -/
theorem resetValuesOfTheRegisters : Obligations.ResetValuesOfTheRegisters :=
  ⟨readPin_afterReset _ _ _ _ _, rfl, rfl, rfl, rfl, rfl⟩

/-- Settles O12: whatever the reset abandons, the registers are those of a reset state. -/
theorem resetInputRestoresTheRegisters : Obligations.ResetInputRestoresTheRegisters := by
  intro s k hr
  obtain ⟨events, he⟩ := abandonAfter_registers platform k s
  refine ⟨_, step_reset hr, ?_⟩
  rw [he]
  exact ⟨readPin_afterReset _ _ _ _ _, rfl, rfl, rfl, rfl, rfl, rfl, rfl, rfl, rfl, rfl, rfl⟩

/-- Settles O35: the phase after n visits is that of `seqRun_scanned`, and the codes are injective. -/
theorem sequencerPhasePath : Obligations.SequencerPhasePath := by
  refine ⟨fun c s n hn => ?_, fun c s => ?_, fun ph => ?_, fun _ _ => Phase.code_injective⟩
  · rw [seqRun_scanned c hn]
    exact phaseOf_code hn
  · rw [runTick_eq]
    exact Phase.code_idle
  · cases ph with
    | idle => exact .inr Phase.code_idle
    | rearm => exact .inl Phase.code_rearm.le
    | scan i => exact .inl ((Phase.code_scan i).trans_le i.isLt.le)

/-- Settles O48, instruction by instruction. -/
theorem gpioCallsAndTheirEffect : Obligations.GpioCallsAndTheirEffect := by
  intro i s t h
  cases i with
  | init p =>
    rw [exec_init h]
    cases hok : platform.pinOk p with
    | false =>
      rw [initOn_refused hok]
      exact ⟨_, rfl, gpioCallsExplain_init hok rfl rfl (by simp [Event.isGpioCall])⟩
    | true =>
      cases hrun : s.run with
      | true =>
        rw [initOn_running hok hrun]
        exact ⟨_, rfl, gpioCallsExplain_init hok rfl rfl (by simp [Event.isGpioCall])⟩
      | false =>
        rw [initOn_first hok hrun]
        exact ⟨_, rfl, gpioCallsExplain_init hok rfl rfl (by simp [Event.isGpioCall])⟩
  | start p =>
    rw [exec_start h]
    exact ⟨_, rfl, gpioCallsExplain_no_gpioCall _ rfl rfl (by simp [Event.isGpioCall])⟩
  | stop p =>
    rw [exec_stop h]
    exact ⟨_, rfl, gpioCallsExplain_no_gpioCall _ rfl rfl (by simp [Event.isGpioCall])⟩
  | setsp p v =>
    rw [exec_setsp h]
    exact ⟨_, rfl, gpioCallsExplain_no_gpioCall _ rfl rfl (by simp [Event.isGpioCall])⟩
  | getsp p =>
    rw [exec_getsp h]
    exact ⟨_, rfl, gpioCallsExplain_no_gpioCall _ rfl rfl (by simp [Event.isGpioCall])⟩
  | tick =>
    rw [exec_tick h]
    rcases tickOn_accepted_or_same platform s with ⟨ha, hp⟩ | hsame
    · rw [tickOn_eq platform ha hp]
      exact ⟨_, rfl, gpioCallsExplain_drives (by simp) rfl (by simp [Event.isGpioCall])⟩
    · rw [hsame]
      exact ⟨[], (List.append_nil _).symm, gpioCallsExplain_no_gpioCall _ rfl rfl nofun⟩

/-- Settles O49: the update that is each instruction names the registers it writes, and a write to one
pin's register leaves those of the other pins. -/
theorem eachRegisterHasItsWriters : Obligations.EachRegisterHasItsWriters := by
  intro i s t h
  cases i with
  | init q =>
    rw [exec_init h]
    cases hok : platform.pinOk q with
    | false => simp [initOn_refused hok]
    | true =>
      cases hrun : s.run with
      | true => simp +contextual [initOn_running hok hrun, readPin_writePin_ne, hrun]
      | false => simp +contextual [initOn_first hok hrun, readPin_writePin_ne]
  | start q =>
    rw [exec_start h]
    simp +contextual [readPin_writePin_ne]
  | stop q =>
    rw [exec_stop h]
    simp +contextual [readPin_writePin_ne]
  | setsp q v =>
    rw [exec_setsp h]
    simp +contextual [readPin_writePin_ne]
  | getsp q => simp [exec_getsp h]
  | tick =>
    rw [exec_tick h]
    rcases tickOn_accepted_or_same platform s with ⟨ha, hp⟩ | hsame
    · simp +contextual [tickOn_eq platform ha hp]
    · simp [hsame]

/-- No instruction clears `RUN`, and none touches the reset input or the inputs to come. -/
theorem exec_keeps_running {i : Instr} {s t : State} (hahead : noResetAhead s) (hrun : s.run = true)
    (h : exec i s = .next t) : noResetAhead t ∧ t.run = true := by
  obtain ⟨-, hnotInit, htiming, -, -, -, -, hrst, hinputs, -⟩ := eachRegisterHasItsWriters i s t h
  refine ⟨by rwa [noResetAhead, hrst, hinputs], ?_⟩
  by_cases hi : i = .tick
  · rw [hnotInit (by simp [hi]), hrun]
  · obtain ⟨-, -, -, hkeep⟩ := htiming hi (.inl hrun)
    rw [hkeep, hrun]

theorem step_keeps_running {s t : State} (hinv : Inv s) (hahead : noResetAhead s)
    (hrun : s.run = true) (hs : StepsTo s t) : noResetAhead t ∧ t.run = true := by
  rcases step_cases hs with ⟨_, _, _, he⟩ | ⟨_, _, _, _, _, _, _, he⟩ | ho
  · exact exec_keeps_running (s := { s with fire := false }) hahead hrun he
  · exact exec_keeps_running (s := { s with cmd := none }) hahead hrun he
  · cases ho with
    | reset k hr => exact absurd hr (by simp [hahead.1])
    | sequencer _ hph => exact absurd hinv.seqIdle hph
    | illegal => exact ⟨hahead, hrun⟩
    | arrival i rest _ _ _ _ hi =>
      obtain ⟨-, hall⟩ := hahead
      rw [hi, List.forall_mem_cons] at hall
      exact ⟨hall, hrun⟩
    | rest => exact ⟨hahead, hrun⟩

/-- Settles O52: the invariant, no reset ahead and `RUN = 1` are kept together by every step. -/
theorem schedulerNeverStops : Obligations.SchedulerNeverStops := by
  intro k s t hinv hahead hrun hruns
  obtain ⟨hinv', -, hrun'⟩ := runsTo_invariant
    (P := fun u => Inv u ∧ noResetAhead u ∧ u.run = true)
    (fun _ _ ⟨hi, ha, hr⟩ hs => ⟨inv_step hi hs, step_keeps_running hi ha hr hs⟩)
    ⟨hinv, hahead, hrun⟩ hruns
  exact ⟨hrun', hinv'.armedWhenRunning.trans hrun'⟩

end Sys2Proof.Proofs
end

section
/-! PROOF. The statements about words, fields, decoding and responses: O1 to O9, O47. First the layer they
rest on: a command word and its fields, `decode` as the inverse of `encode`, and the step that takes an
instruction. -/

namespace Sys2Proof.Machine

/-! ### A command word and its fields -/

section Fields

variable {w : CommandWord} {op : BitVec 4} {p : Pin} {v : Setpoint}

theorem opField_eq_iff : opField w = op ↔ w.toNat / 4096 = op.toNat := by
  rw [← BitVec.toNat_inj, opField_toNat]

theorem immField_eq_iff : immField w = v ↔ w.toNat % 256 = v.toNat := by
  rw [← BitVec.toNat_inj, immField_toNat]

theorem immField_eq_ofNat : immField w = BitVec.ofNat 8 (w.toNat % 256) := by
  simp [immField_eq_iff]

theorem pinField_eq_ofNat : pinField w = Fin.ofNat 16 (w.toNat / 256) :=
  Fin.ext (pinField_val w)

/-- R68: the pack of three fields as a sum. -/
theorem packWord_eq_ofNat (op : BitVec 4) (p : Pin) (v : Setpoint) :
    packWord op p v = BitVec.ofNat 16 (op.toNat * 4096 + 256 * p.val + v.toNat) := by
  have hsum := packWord_toNat op p v
  rw [Nat.mul_comm p.val] at hsum
  rw [← hsum, BitVec.ofNat_toNat, BitVec.setWidth_eq]

/-- A word is the pack of given fields exactly when these are its fields. -/
theorem packWord_eq_iff : packWord op p v = w ↔ opField w = op ∧ pinField w = p ∧ immField w = v := by
  constructor
  · rintro rfl
    simp
  · rintro ⟨rfl, rfl, rfl⟩
    exact packWord_fields w

theorem packWord_inj {op' : BitVec 4} {p' : Pin} {v' : Setpoint} :
    packWord op p v = packWord op' p' v' ↔ op = op' ∧ p = p' ∧ v = v' := by
  rw [packWord_eq_iff]
  simp [eq_comm]

/-- The mask of a row without immediate clears the pin field (R63). -/
theorem and_maskOpImm (w : CommandWord) : w &&& 0xF0FF = packWord (opField w) 0 (immField w) := by
  apply BitVec.eq_of_getLsbD_eq
  intro i hi
  interval_cases i <;> simp [packWord, opField, immField, -BitVec.getLsbD_eq_getElem]

/-- The mask of the `SETSP` row clears the pin field and the immediate (R63). -/
theorem and_maskOp (w : CommandWord) : w &&& 0xF000 = packWord (opField w) 0 0 := by
  apply BitVec.eq_of_getLsbD_eq
  intro i hi
  interval_cases i <;> simp [packWord, opField, -BitVec.getLsbD_eq_getElem]

/-- A word has the match m of a row without immediate under that row's mask exactly when it is a word of
the row (R63). -/
theorem and_maskOpImm_eq_iff {m : CommandWord} (hm : m = packWord op 0 0) :
    w &&& 0xF0FF = m ↔ ∃ p, packWord op p 0 = w := by
  rw [hm, and_maskOpImm, packWord_inj]
  simp [packWord_eq_iff]

/-- The same for the row of `SETSP` (R63). -/
theorem and_maskOp_eq_iff {m : CommandWord} (hm : m = packWord op 0 0) :
    w &&& 0xF000 = m ↔ ∃ p v, packWord op p v = w := by
  rw [hm, and_maskOp, packWord_inj]
  simp [packWord_eq_iff]

end Fields

end Sys2Proof.Machine

namespace Sys2Proof

open Machine

/-! ### Decoding and encoding -/

theorem withoutImm_eq_ok_iff {w : CommandWord} {i j : Instr} :
    withoutImm w i = .ok j ↔ immField w = 0 ∧ i = j := by
  unfold withoutImm
  split
  · next himm => simp only [himm, true_and, Except.ok.injEq]
  · next himm => simp only [himm, false_and, reduceCtorEq]

theorem withoutImm_toOption (w : CommandWord) (i : Instr) :
    (withoutImm w i).toOption = if immField w = 0 then some i else none := by
  unfold withoutImm
  split <;> rfl

/-- The decoding procedure on the pack of three fields (R68). -/
theorem decodeCommand_packWord (op : BitVec 4) (p : Pin) (v : Setpoint) :
    decodeCommand (packWord op p v) =
      let w := packWord op p v
      if op = 1 then withoutImm w (.init p)
      else if op = 2 then withoutImm w (.start p)
      else if op = 3 then withoutImm w (.stop p)
      else if op = 4 then .ok (.setsp p v)
      else if op = 5 then withoutImm w (.getsp p)
      else .error (.reservedOp op) := by
  simp only [decodeCommand, opField_packWord, pinField_packWord, immField_packWord]

/-- A command whose immediate is packed as 0 passes the check of its immediate. -/
theorem withoutImm_packWord_zero (op : BitVec 4) (p : Pin) (i : Instr) :
    withoutImm (packWord op p 0) i = .ok i :=
  withoutImm_eq_ok_iff.2 ⟨immField_packWord op p 0, rfl⟩

/-- Encode then decode is the identity (R68): the fields of a packed word are those packed. -/
theorem decode_encode (i : Instr) : decode (encode i) = .ok i := by
  cases i with
  | init p => exact (decodeCommand_packWord 1 p 0).trans (withoutImm_packWord_zero 1 p _)
  | start p => exact (decodeCommand_packWord 2 p 0).trans (withoutImm_packWord_zero 2 p _)
  | stop p => exact (decodeCommand_packWord 3 p 0).trans (withoutImm_packWord_zero 3 p _)
  | setsp p v => exact decodeCommand_packWord 4 p v
  | getsp p => exact (decodeCommand_packWord 5 p 0).trans (withoutImm_packWord_zero 5 p _)
  | tick => rfl

theorem host_packWord_eq {w : CommandWord} {op : BitVec 4} {v : Setpoint} (hop : opField w = op)
    (himm : immField w = v) : PortWord.host (packWord op (pinField w) v) = .host w :=
  congrArg PortWord.host (packWord_eq_iff.2 ⟨hop, rfl, himm⟩)

theorem encode_of_withoutImm {w : CommandWord} {op : BitVec 4} {i j : Instr} (hop : opField w = op)
    (henc : encode i = .host (packWord op (pinField w) 0)) (h : withoutImm w i = .ok j) :
    encode j = .host w := by
  obtain ⟨himm, rfl⟩ := withoutImm_eq_ok_iff.1 h
  rw [henc, host_packWord_eq hop himm]

/-- A command word that decodes is the word of what it decodes to (R68). -/
theorem encode_of_decodeCommand {w : CommandWord} {i : Instr} (h : decodeCommand w = .ok i) :
    encode i = .host w := by
  unfold decodeCommand at h
  split_ifs at h with hinit hstart hstop hsetsp hgetsp
  · exact encode_of_withoutImm hinit rfl h
  · exact encode_of_withoutImm hstart rfl h
  · exact encode_of_withoutImm hstop rfl h
  · cases h
    exact host_packWord_eq hsetsp rfl
  · exact encode_of_withoutImm hgetsp rfl h

/-- `decode` and `encode` are inverse to each other on the words that decode (R68). -/
theorem decode_eq_ok_iff {w : PortWord} {i : Instr} : decode w = .ok i ↔ encode i = w := by
  refine ⟨fun h => ?_, fun h => h ▸ decode_encode i⟩
  cases w with
  | host w => exact encode_of_decodeCommand h
  | timer fire =>
    rw [decode, decodeEvent] at h
    split at h
    · next hfire =>
      cases h
      exact congrArg PortWord.timer hfire.symm
    · cases h

/-- The outcome of a command word, by its fields (R68). -/
theorem decode_host_toOption (w : CommandWord) :
    (decode (.host w)).toOption =
      if opField w = 1 ∧ immField w = 0 then some (.init (pinField w))
      else if opField w = 2 ∧ immField w = 0 then some (.start (pinField w))
      else if opField w = 3 ∧ immField w = 0 then some (.stop (pinField w))
      else if opField w = 4 then some (.setsp (pinField w) (immField w))
      else if opField w = 5 ∧ immField w = 0 then some (.getsp (pinField w))
      else none := by
  simp only [decode, decodeCommand, apply_ite Except.toOption, withoutImm_toOption]
  by_cases himm : immField w = 0
  · simp only [himm, and_true, if_true, Except.toOption]
  · by_cases hop : opField w = 4
    · simp [hop, Except.toOption]
    · simp only [himm, hop, and_false, if_false, ite_self, Except.toOption]

/-- Every operation lies in its row of the table (R63). -/
theorem tableRow (i : Instr) : Laws.TableRow.Statement i := by
  cases i with
  | init p => exact Laws.TableRow.init p
  | start p => exact Laws.TableRow.start p
  | stop p => exact Laws.TableRow.stop p
  | setsp p v => exact Laws.TableRow.setsp p v
  | getsp p => exact Laws.TableRow.getsp p
  | tick => exact Laws.TableRow.tick

theorem legal_encode (i : Instr) : WellFormed.legal (encode i) = true := by
  obtain ⟨-, hlegal, -⟩ := tableRow i
  exact hlegal

/-- R65: the legal command words, by their fields. -/
theorem legalWord_iff {w : CommandWord} : WellFormed.legalWord w = true ↔
    (opField w = 1 ∨ opField w = 2 ∨ opField w = 3 ∨ opField w = 4 ∨ opField w = 5) ∧
      (opField w = 4 ∨ immField w = 0) := by
  simp [WellFormed.legalWord, WellFormed.opDefined, WellFormed.immAllowed, or_assoc]

/-- R65: the illegal command words, in the arithmetic of the word's value. -/
theorem legalWord_eq_false_iff {w : CommandWord} : WellFormed.legalWord w = false ↔
    (w.toNat / 4096 = 0 ∨ 6 ≤ w.toNat / 4096 ∨ w.toNat / 4096 ≠ 4 ∧ w.toNat % 256 ≠ 0) := by
  rw [← Bool.not_eq_true, legalWord_iff]
  simp only [opField_eq_iff, immField_eq_iff, BitVec.reduceToNat]
  omega

/-- R65: every legal word is the word of an operation. -/
theorem exists_encode_of_legal {w : PortWord} (h : WellFormed.legal w = true) :
    ∃ i, encode i = w := by
  cases w with
  | timer fire =>
    obtain rfl : fire = 1 := by simpa [WellFormed.legal] using h
    exact ⟨.tick, rfl⟩
  | host w =>
    by_cases hsetsp : opField w = 4
    · exact ⟨.setsp (pinField w) (immField w), host_packWord_eq hsetsp rfl⟩
    · obtain ⟨hop, himm⟩ := legalWord_iff.1 h
      replace himm := himm.resolve_left hsetsp
      rcases hop with hop | hop | hop | hop | hop
      · exact ⟨.init (pinField w), host_packWord_eq hop himm⟩
      · exact ⟨.start (pinField w), host_packWord_eq hop himm⟩
      · exact ⟨.stop (pinField w), host_packWord_eq hop himm⟩
      · exact absurd hop hsetsp
      · exact ⟨.getsp (pinField w), host_packWord_eq hop himm⟩

end Sys2Proof

namespace Sys2Proof.Machine

open Safety

/-! ### Responses -/

theorem Status.code_lt (st : Status) : st.code.toNat < 3 := by
  cases st <;> decide

/-- R62: the status code in bits 9:8, the data in bits 7:0. -/
theorem Response.word_toNat (r : Response) :
    r.word.toNat = 256 * r.status.code.toNat + r.data.toNat := by
  rw [Response.word, BitVec.toNat_append, ← Nat.shiftLeft_add_eq_or_of_lt r.data.isLt,
    Nat.shiftLeft_eq, Nat.mul_comm]

/-- The calls of a tick's slots are no responses (R103). -/
theorem countP_isResponse_drives (s : State) :
    ((List.finRange 16).filterMap (driveOf s)).countP Event.isResponse = 0 := by
  refine List.countP_eq_zero.2 fun e he => ?_
  obtain ⟨q, -, hq⟩ := List.mem_filterMap.1 he
  rw [driveOf, Option.ite_none_right_eq_some] at hq
  obtain ⟨-, hcall⟩ := hq
  cases hcall
  exact Bool.false_ne_true

/-! ### The step that takes an instruction -/

/-- R68, R165: a command is taken and run. -/
theorem step_command {s : State} {w : CommandWord} {i : Instr} (hr : s.rst = none)
    (hp : s.ph = .idle) (hf : s.fire = false) (hc : s.cmd = some w)
    (hd : decode (.host w) = .ok i) : step s = exec i { s with cmd := none } := by
  rw [step_takeNext hr, takeNext_idle platform hp hf]
  simp only [hc, acceptCommand, hd, perform]

/-- R61, R183: an expiry is taken before a command. -/
theorem step_expiry {s : State} (hr : s.rst = none) (hp : s.ph = .idle) (hf : s.fire = true) :
    step s = exec .tick { s with fire := false } := by
  rw [step_takeNext hr, takeNext_expiry platform hp hf, perform]

end Sys2Proof.Machine

namespace Sys2Proof.Proofs

open Sys2Proof.Machine

/-- Settles O4. -/
theorem decodeOfEncodeIsTheInstruction : Obligations.DecodeOfEncodeIsTheInstruction := decode_encode

/-- Settles O3: the outcome by fields, read as numbers, and `decode_eq_ok_iff` both ways. -/
theorem decodingProcedureAndItsInverse : Obligations.DecodingProcedureAndItsInverse := by
  refine ⟨fun w => ?_, fun p v => ?_, decode_encode, fun _ _ => decode_eq_ok_iff.1⟩
  · rw [decode_host_toOption, pinField_eq_ofNat]
    simp only [opField_eq_iff, immField_eq_iff, BitVec.reduceToNat]
    rw [immField_eq_ofNat]
  · simp [encode, packWord_eq_ofNat]

/-- Settles O5: the words of a row are those whose fields are the match under the mask. -/
theorem maskAndMatchSelectTheRow : Obligations.MaskAndMatchSelectTheRow := by
  simp only [Obligations.MaskAndMatchSelectTheRow, ne_eq, decode_eq_ok_iff, encode, PortWord.host.injEq,
    PortWord.timer.injEq, reduceCtorEq, not_false_eq_true, and_true]
  exact ⟨fun _ => ⟨and_maskOpImm_eq_iff rfl, and_maskOpImm_eq_iff rfl, and_maskOpImm_eq_iff rfl,
    and_maskOp_eq_iff rfl, and_maskOpImm_eq_iff rfl⟩, fun _ => eq_comm⟩

/-- Settles O6: a word decodes exactly when it is the word of an operation. -/
theorem exactlyTheLegalWordsDecode : Obligations.ExactlyTheLegalWordsDecode := by
  refine ⟨fun w => ?_, fun _ => legalWord_eq_false_iff⟩
  simp only [decode_eq_ok_iff]
  exact ⟨fun ⟨i, hi⟩ => hi ▸ legal_encode i, exists_encode_of_legal⟩

/-- Settles O47, instruction by instruction. -/
theorem oneResponsePerCommand : Obligations.OneResponsePerCommand := by
  intro i s t h
  cases i with
  | init p =>
    rw [exec_init h]
    cases hok : platform.pinOk p with
    | false =>
      rw [initOn_refused hok]
      exact ⟨_, rfl, rfl⟩
    | true =>
      cases hrun : s.run with
      | true =>
        rw [initOn_running hok hrun]
        exact ⟨_, rfl, rfl⟩
      | false =>
        rw [initOn_first hok hrun]
        exact ⟨_, rfl, rfl⟩
  | start p =>
    rw [exec_start h]
    exact ⟨_, rfl, rfl⟩
  | stop p =>
    rw [exec_stop h]
    exact ⟨_, rfl, rfl⟩
  | setsp p v =>
    rw [exec_setsp h]
    exact ⟨_, rfl, rfl⟩
  | getsp p =>
    rw [exec_getsp h]
    exact ⟨_, rfl, rfl⟩
  | tick =>
    rw [exec_tick h]
    rcases tickOn_accepted_or_same platform s with ⟨ha, hp⟩ | hsame
    · rw [tickOn_eq platform ha hp]
      refine ⟨_, rfl, ?_⟩
      rw [List.countP_append, countP_isResponse_drives]
      rfl
    · rw [hsame]
      exact ⟨[], (List.append_nil _).symm, rfl⟩

/-- Settles O1. -/
theorem commandFieldsAreTheNamedBits : Obligations.CommandFieldsAreTheNamedBits :=
  fun w => ⟨opField_toNat w, pinField_val w, immField_toNat w⟩

/-- Settles O2: the legal words are the words of their operations. -/
theorem writtenOutWordsDecode : Obligations.WrittenOutWordsDecode :=
  ⟨decode_encode (.init 5), decode_encode (.start 15), decode_encode (.stop 0),
    decode_encode (.setsp 5 255), decode_encode (.getsp 5), decode_encode .tick, by decide, by decide⟩

/-- Settles O7. -/
theorem responseBits : Obligations.ResponseBits := by
  intro d
  simp only [Response.word_toNat]
  refine ⟨Nat.zero_add _, rfl, rfl, fun r => ?_⟩
  have hcode := r.status.code_lt
  have hdata := r.data.isLt
  omega

/-- Settles O8. -/
theorem stepRunsThePresentedInstruction : Obligations.StepRunsThePresentedInstruction :=
  fun _ _ _ => step_command

/-- Settles O9: no instruction writes the command port, so the command waits. -/
theorem stepTakesTheExpiryBeforeACommand : Obligations.StepTakesTheExpiryBeforeACommand := by
  intro s hr hp hf
  have hstep := step_expiry hr hp hf
  obtain ⟨t, ht⟩ := exec_next .tick { s with fire := false }
  obtain ⟨-, -, -, -, hcmd, -⟩ := eachRegisterHasItsWriters _ _ _ ht
  exact ⟨hstep, t, hstep.trans ht, hcmd⟩

end Sys2Proof.Proofs
end

section
/-! PROOF. The statements about the setpoint and the registry: O17 to O21, O55. First the layer O55 rests
on: the modulator's levels as a sequence, and runs that change a channel by modulator steps only. -/

namespace Sys2Proof.Machine

open Safety

/-! ### The modulator: values, counts, windows -/

/-- R105: the level is the carry out of 8 bits. -/
theorem modStep_level (a s : BitVec 8) : (modStep a s).1 = decide (256 ≤ a.toNat + s.toNat) := by
  have ha := a.isLt
  have hs := s.isLt
  simp only [modStep, BitVec.getLsbD, BitVec.toNat_add, BitVec.toNat_setWidth,
    Nat.testBit_eq_decide_div_mod_eq]
  congr 1
  apply propext
  omega

/-- R105: the accumulator keeps the sum modulo 256. -/
theorem modStep_acc (a s : BitVec 8) : (modStep a s).2.toNat = (a.toNat + s.toNat) % 256 := by
  have ha := a.isLt
  have hs := s.isLt
  simp only [modStep, BitVec.toNat_add, BitVec.toNat_setWidth]
  omega

/-- R103, R105: the level an occupied slot drives is that of the modulator. -/
theorem carry_eq_modStep (a : BitVec 8) (s : Setpoint) :
    carry (slotSum (a.setWidth 16) s) = (modStep a s).1 := by
  have ha := a.isLt
  have hs := s.isLt
  rw [carry_eq, modStep_level, BitVec.toNat_setWidth]
  congr 1
  apply propext
  omega

/-- R104, R105: what an occupied slot leaves in the accumulator is what the modulator leaves. -/
theorem maskSum_eq_modStep (a : BitVec 8) (s : Setpoint) :
    maskSum (slotSum (a.setWidth 16) s) = (modStep a s).2.setWidth 16 := by
  have ha := a.isLt
  apply BitVec.eq_of_toNat_eq
  simp only [maskSum_eq, BitVec.toNat_ofNat, BitVec.toNat_setWidth, modStep_acc]
  omega

theorem modAcc_add (a : BitVec 8) (s : Setpoint) (m n : Nat) :
    modAcc a s (m + n) = modAcc (modAcc a s m) s n := by
  induction n with
  | zero => rfl
  | succ n ih => rw [← Nat.add_assoc, modAcc, ih, modAcc]

theorem modLevels_succ (a : BitVec 8) (s : Setpoint) (n : Nat) :
    modLevels a s (n + 1) = modLevels a s n ++ [(modStep (modAcc a s n) s).1] := by
  simp [modLevels, List.range_succ, modLevel]

@[simp] theorem length_modLevels (a : BitVec 8) (s : Setpoint) (n : Nat) :
    (modLevels a s n).length = n := by
  simp [modLevels]

/-- The levels after the first m are those of a channel that starts with the accumulator reached. -/
theorem modLevels_add (a : BitVec 8) (s : Setpoint) (m n : Nat) :
    modLevels a s (m + n) = modLevels a s m ++ modLevels (modAcc a s m) s n := by
  induction n with
  | zero => simp [modLevels]
  | succ n ih => rw [← Nat.add_assoc, modLevels_succ, ih, modLevels_succ, modAcc_add, List.append_assoc]

/-- A window of the levels is the levels of a channel that starts with the accumulator reached. -/
theorem modLevels_window (a : BitVec 8) (s : Setpoint) {m k n : Nat} (h : m + k ≤ n) :
    ((modLevels a s n).drop m).take k = modLevels (modAcc a s m) s k := by
  obtain ⟨r, rfl⟩ := Nat.exists_eq_add_of_le h
  rw [Nat.add_assoc, modLevels_add, modLevels_add _ _ k, List.drop_left' (length_modLevels a s m),
    List.take_left' (length_modLevels _ s k)]

/-- R107: nothing of the setpoints added is lost: 256 for each high level, the rest in the accumulator. -/
theorem count_modLevels_add_modAcc (a : BitVec 8) (s : Setpoint) (n : Nat) :
    256 * (modLevels a s n).count true + (modAcc a s n).toNat = a.toNat + n * s.toNat := by
  induction n with
  | zero => simp [modLevels, modAcc]
  | succ n ih =>
    have hacc := (modAcc a s n).isLt
    have hs := s.isLt
    rw [modLevels_succ, List.count_append, modAcc, modStep_acc, modStep_level, Nat.add_one_mul n]
    by_cases hlevel : 256 ≤ (modAcc a s n).toNat + s.toNat
    · rw [decide_eq_true hlevel, List.count_singleton_self]
      omega
    · rw [decide_eq_false hlevel, List.count_eq_zero_of_not_mem (by simp : true ∉ [false])]
      omega

/-- R86, R107 (b): 256 ticks, from any accumulator, hold as many high levels as the setpoint says. -/
theorem count_modLevels_256 (a : BitVec 8) (s : Setpoint) :
    (modLevels a s 256).count true = s.toNat := by
  have hsum := count_modLevels_add_modAcc a s 256
  have hstart := a.isLt
  have hend := (modAcc a s 256).isLt
  omega

/-! ### Runs that change a channel by modulator steps only -/

/-- From s to t the block has only added events, channel p has kept its setpoint, and from a masked
accumulator the levels newly driven on pin p and the accumulator left are those of as many modulator
steps (R105, R148). -/
def Modulates (p : Pin) (s t : State) : Prop :=
  ∃ new, t.events = s.events ++ new ∧ readPin t.sp p = readPin s.sp p ∧
    ∀ a : BitVec 8, readPin s.acc p = a.setWidth 16 →
      levelsOf p new = modLevels a (readPin s.sp p) (levelsOf p new).length ∧
      readPin t.acc p = (modAcc a (readPin s.sp p) (levelsOf p new).length).setWidth 16

variable {p : Pin} {s t u : State}

/-- No level is driven on pin p, and its setpoint and accumulator stay. -/
theorem modulates_of_no_level {new : List Event} (hev : t.events = s.events ++ new)
    (hlevels : levelsOf p new = []) (hsp : readPin t.sp p = readPin s.sp p)
    (hacc : readPin t.acc p = readPin s.acc p) : Modulates p s t := by
  refine ⟨new, hev, hsp, fun a ha => ?_⟩
  rw [hlevels]
  exact ⟨rfl, hacc.trans ha⟩

theorem Modulates.refl (p : Pin) (s : State) : Modulates p s s :=
  modulates_of_no_level (List.append_nil _).symm rfl rfl rfl

theorem Modulates.trans (hst : Modulates p s t) (htu : Modulates p t u) : Modulates p s u := by
  obtain ⟨new, hev, hsp, hmod⟩ := hst
  obtain ⟨new', hev', hsp', hmod'⟩ := htu
  refine ⟨new ++ new', by rw [hev', hev, List.append_assoc], hsp'.trans hsp, fun a ha => ?_⟩
  obtain ⟨hlevels, hacc⟩ := hmod a ha
  obtain ⟨hlevels', hacc'⟩ := hmod' _ hacc
  rw [hsp] at hlevels' hacc'
  rw [levelsOf_append, List.length_append, modLevels_add, modAcc_add, ← hlevels, ← hlevels']
  exact ⟨rfl, hacc'⟩

/-- A slot visit is one modulator step of its own pin if the slot is occupied, and nothing to any other
pin (R101, R105). -/
theorem visitSlot_modulates (p i : Pin) (s : State) : Modulates p s (visitSlot i s) := by
  rw [visitSlot_eq]
  cases hreg : readPin s.reg i with
  | false => exact Modulates.refl p s
  | true =>
    by_cases hpin : p = i
    · subst hpin
      refine ⟨_, rfl, rfl, fun a ha => ?_⟩
      simp [ha, carry_eq_modStep, maskSum_eq_modStep, Event.level?, modLevels, modLevel, modAcc]
    · exact modulates_of_no_level rfl (by simp [Event.level?, Ne.symm hpin]) rfl
        (readPin_writePin_other _ _ _ _ hpin)

theorem rearm_modulates (c : Config) (p : Pin) (s : State) : Modulates p s (rearm c s) := by
  rw [rearm_eq]
  exact modulates_of_no_level rfl (by simp [Event.level?]) rfl rfl

theorem seqStep_modulates (c : Config) (p : Pin) (s : State) : Modulates p s (seqStep c s) := by
  cases hph : s.ph with
  | idle =>
    rw [seqStep_idle c hph]
    exact Modulates.refl p s
  | scan i =>
    rw [seqStep_scan c hph]
    exact visitSlot_modulates p i s
  | rearm =>
    rw [seqStep_rearm c hph]
    exact rearm_modulates c p s

/-- SEQ changes a channel by modulator steps only, whatever the phase it starts in. -/
theorem seqRun_modulates (c : Config) (p : Pin) (n : Nat) (s : State) :
    Modulates p s (seqRun c n s) := by
  induction n generalizing s with
  | zero => exact Modulates.refl p s
  | succ n ih => exact (seqStep_modulates c p s).trans (ih (seqStep c s))

theorem tickOn_modulates (c : Config) (p : Pin) (s : State) : Modulates p s (tickOn c s) := by
  unfold tickOn
  split
  · exact seqRun_modulates c p tickPhases (enterTick s)
  · exact Modulates.refl p s

/-- Every instruction but `INIT p` and `SETSP p` changes channel p by modulator steps only (R15, R148). -/
theorem exec_modulates {i : Instr} (hinit : i ≠ .init p) (hsetsp : ∀ v, i ≠ .setsp p v)
    (h : exec i s = .next t) : Modulates p s t := by
  by_cases htick : i = .tick
  · subst htick
    rw [exec_tick h]
    exact tickOn_modulates platform p s
  · obtain ⟨new, hev, hdrives, -⟩ := Proofs.gpioCallsAndTheirEffect i s t h
    obtain ⟨hpins, -⟩ := Proofs.eachRegisterHasItsWriters i s t h
    obtain ⟨-, hsp, hacc, -⟩ := hpins p
    have hlevels : levelsOf p new = [] := List.filterMap_eq_nil_iff.2 fun e he => by
      cases e with
      | gpioSetLevel q l => exact absurd (hdrives q l he).1 htick
      | _ => rfl
    exact modulates_of_no_level hev hlevels (hsp hinit hsetsp) (hacc hinit htick)

/-! ### A channel left alone -/

/-- An operation of a word that does not change channel p is neither `INIT p` nor `SETSP p` (R15). -/
theorem instr_of_wordChangesChannel_eq_false {w : CommandWord} {i : Instr}
    (hw : wordChangesChannel p w = false) (hd : decode (.host w) = .ok i) :
    i ≠ .init p ∧ ∀ v, i ≠ .setsp p v := by
  rw [wordChangesChannel, hd] at hw
  exact ⟨by rintro rfl; simp at hw, by rintro v rfl; simp at hw⟩

/-- Whether channel p is left alone depends on three ports only. -/
theorem channelLeftAlone_of_ports_eq (h : channelLeftAlone p s) (hrst : t.rst = s.rst)
    (hcmd : t.cmd = s.cmd) (hinputs : t.inputs = s.inputs) : channelLeftAlone p t := by
  rwa [channelLeftAlone, hrst, hcmd, hinputs]

theorem channelLeftAlone_exec {i : Instr} (ha : channelLeftAlone p s) (h : exec i s = .next t) :
    channelLeftAlone p t := by
  obtain ⟨-, -, -, -, hcmd, -, -, hrst, hinputs, -⟩ := Proofs.eachRegisterHasItsWriters i s t h
  exact channelLeftAlone_of_ports_eq ha hrst hcmd hinputs

theorem channelLeftAlone_taken (ha : channelLeftAlone p s) :
    channelLeftAlone p { s with cmd := none } := by
  obtain ⟨hrst, -, hinputs⟩ := ha
  exact ⟨hrst, rfl, hinputs⟩

/-- The next input to come leaves the channel alone, and so do those after it. -/
theorem channelLeftAlone_arrive {i : Input} {rest : List Input} (ha : channelLeftAlone p s)
    (hi : s.inputs = i :: rest) : channelLeftAlone p (arrive i { s with inputs := rest }) := by
  obtain ⟨-, -, hinputs⟩ := ha
  rw [hi, List.any_cons, Bool.or_eq_false_iff, inputChangesChannel, Bool.or_eq_false_iff,
    Option.isSome_eq_false_iff, Option.isNone_iff_eq_none] at hinputs
  obtain ⟨⟨hrst, hcmd⟩, hrest⟩ := hinputs
  exact ⟨hrst, hcmd, hrest⟩

theorem otherStep_modulates (ha : channelLeftAlone p s) (ho : OtherStep s t) :
    channelLeftAlone p t ∧ Modulates p s t := by
  cases ho with
  | reset k hr => exact absurd hr (by simp [ha.1])
  | sequencer =>
    obtain ⟨hcmd, -, -, hrst, hinputs, -⟩ := seqRun_ports platform tickPhases s
    exact ⟨channelLeftAlone_of_ports_eq ha hrst hcmd hinputs,
      seqRun_modulates platform p tickPhases s⟩
  | illegal =>
    exact ⟨channelLeftAlone_of_ports_eq (channelLeftAlone_taken ha) rfl rfl rfl,
      modulates_of_no_level rfl rfl rfl rfl⟩
  | arrival i rest _ _ _ _ hi => exact ⟨channelLeftAlone_arrive ha hi, Modulates.refl p s⟩
  | rest => exact ⟨ha, Modulates.refl p s⟩

theorem step_modulates (ha : channelLeftAlone p s) (hs : StepsTo s t) :
    channelLeftAlone p t ∧ Modulates p s t := by
  rcases step_cases hs with ⟨-, -, -, he⟩ | ⟨w, i, -, -, -, hc, hd, he⟩ | ho
  · exact ⟨channelLeftAlone_exec (s := { s with fire := false }) ha he,
      exec_modulates (s := { s with fire := false }) Instr.noConfusion (fun _ => Instr.noConfusion) he⟩
  · have hw : wordChangesChannel p w = false := by
      simpa [hc] using ha.2.1
    obtain ⟨hinit, hsetsp⟩ := instr_of_wordChangesChannel_eq_false hw hd
    exact ⟨channelLeftAlone_exec (channelLeftAlone_taken ha) he,
      exec_modulates (s := { s with cmd := none }) hinit hsetsp he⟩
  · exact otherStep_modulates ha ho

/-- R148: a run that leaves channel p alone changes it by modulator steps only. -/
theorem runsTo_modulates {k : Nat} (ha : channelLeftAlone p s) (h : RunsTo k s t) :
    Modulates p s t :=
  (runsTo_invariant (P := fun v => channelLeftAlone p v ∧ Modulates p s v)
    (fun _ _ ⟨halone, hmod⟩ hs =>
      have ⟨halone', hmod'⟩ := step_modulates halone hs
      ⟨halone', hmod.trans hmod'⟩)
    ⟨ha, Modulates.refl p s⟩ h).2

/-- The levels newly driven along such a run from a masked accumulator (R107, R148). -/
theorem levelsOf_runsTo {k : Nat} {new : List Event} (ha : channelLeftAlone p s)
    (hmasked : (readPin s.acc p).toNat < 256) (h : RunsTo k s t)
    (hev : t.events = s.events ++ new) :
    levelsOf p new =
      modLevels ((readPin s.acc p).setWidth 8) (readPin s.sp p) (levelsOf p new).length := by
  obtain ⟨new', hev', -, hmod⟩ := runsTo_modulates ha h
  obtain rfl := List.append_cancel_left (hev.symm.trans hev')
  have hacc : readPin s.acc p = ((readPin s.acc p).setWidth 8).setWidth 16 := by
    apply BitVec.eq_of_toNat_eq
    simp only [BitVec.toNat_setWidth]
    omega
  exact (hmod _ hacc).1

end Sys2Proof.Machine

namespace Sys2Proof.Proofs

open Sys2Proof.Machine Sys2Proof.Safety

/-- Settles O55: the levels are those of the modulator, and any window of them is 256 ticks from the
accumulator reached. -/
theorem dutyInEveryWindowOf256Ticks : Obligations.DutyInEveryWindowOf256Ticks := by
  intro p k m s t new ha hmasked hrun hev hwindow
  rw [levelsOf_runsTo ha hmasked hrun hev, modLevels_window _ _ hwindow]
  exact count_modLevels_256 _ _

/-- Settles O17. -/
theorem setspWritesTheSetpointOnly : Obligations.SetspWritesTheSetpointOnly :=
  fun p v s => congrArg Host.Outcome.next (respond_eq (s.setSp p v) .ok 0)

/-- Settles O18. -/
theorem getspAnswersTheSetpoint : Obligations.GetspAnswersTheSetpoint :=
  fun p s => congrArg Host.Outcome.next (respond_eq s .ok (readPin s.sp p))

/-- Settles O19: `GETSP q` reads the file that `SETSP p` wrote. -/
theorem getspReadsWhatSetspWrote : Obligations.GetspReadsWhatSetspWrote := by
  intro p q v s
  refine ⟨_, _, setspWritesTheSetpointOnly p v s, getspAnswersTheSetpoint q _, ?_⟩
  rw [List.getLast?_concat, readPin_writePin]

/-- Settles O20. -/
theorem startRegistersTheChannelOnly : Obligations.StartRegistersTheChannelOnly :=
  fun p s => congrArg Host.Outcome.next (respond_eq (register p s) .ok 0)

/-- Settles O21: `STOP` writes neither `DIR` nor `LVL`, all that a pad shows (R162). -/
theorem stopUnregistersTheChannelOnly : Obligations.StopUnregistersTheChannelOnly :=
  fun p s => ⟨_, rfl, respond_eq (unregister p s) .ok 0, fun _ => rfl⟩

end Sys2Proof.Proofs
end

section
/-! PROOF. The isolation of the channels: O56. First the layer it rests on: what each transition does to two
states that agree on one channel. -/

namespace Sys2Proof.Safety

open Machine

/-! ### Agreement on a channel -/

variable {p : Pin} {s s' : State}

theorem AgreeOn.symm (h : AgreeOn p s s') : AgreeOn p s' s :=
  ⟨h.reg.symm, h.sp.symm, h.acc.symm, h.dir.symm, h.lvl.symm, h.run.symm, h.armed.symm, h.ph.symm,
    h.cmd.symm, h.fire.symm, h.rst.symm, h.inputs.symm, h.resets.symm, h.levels.symm⟩

/-- New events that drive the same levels on pin p keep the levels driven so far in agreement. -/
theorem AgreeOn.levels_append (h : AgreeOn p s s') {new new' : List Event}
    (hnew : levelsOf p new = levelsOf p new') :
    levelsOf p (s.events ++ new) = levelsOf p (s'.events ++ new') := by
  rw [levelsOf_append, levelsOf_append, h.levels, hnew]

end Sys2Proof.Safety

namespace Sys2Proof.Machine

open Safety

variable {p : Pin} {s s' t t' : State}

/-- A file written at the same pin with the same value. -/
theorem readPin_writePin_congr {α : Type} {f g : PerPin α} (h : readPin f p = readPin g p) (q : Pin)
    (x : α) : readPin (writePin f q x) p = readPin (writePin g q x) p := by
  rw [readPin_writePin, readPin_writePin, h]

/-! ### The sequencer -/

/-- The visit of another slot is nothing to channel p (R101, R110). -/
theorem visitSlot_agree_other {i : Pin} (hi : p ≠ i) (h : AgreeOn p s s') :
    AgreeOn p (visitSlot i s) s' := by
  rw [visitSlot_eq]
  cases readPin s.reg i with
  | false => exact h
  | true =>
    exact { h with
      acc := (readPin_writePin_other _ _ _ _ hi).trans h.acc
      lvl := (readPin_writePin_other _ _ _ _ hi).trans h.lvl
      levels := by simpa [Event.level?, Ne.symm hi] using h.levels }

/-- The visit of a channel's own slot reads that channel only (R102 to R104, R110). -/
theorem visitSlot_agree_own (h : AgreeOn p s s') : AgreeOn p (visitSlot p s) (visitSlot p s') := by
  rw [visitSlot_eq, visitSlot_eq, ← h.reg, ← h.acc, ← h.sp]
  cases readPin s.reg p with
  | false => exact h
  | true =>
    exact { h with
      acc := readPin_writePin_congr h.acc p _
      lvl := readPin_writePin_congr h.lvl p _
      levels := h.levels_append rfl }

theorem visitSlot_agree (i : Pin) (h : AgreeOn p s s') : AgreeOn p (visitSlot i s) (visitSlot i s') := by
  by_cases hi : p = i
  · exact hi ▸ visitSlot_agree_own h
  · exact (visitSlot_agree_other hi (visitSlot_agree_other hi h).symm).symm

/-- The rearm writes the timing registers and `ARMED`, and drives no pin (R127). -/
theorem rearm_agree (c : Config) (h : AgreeOn p s s') : AgreeOn p (rearm c s) (rearm c s') := by
  rw [rearm_eq, rearm_eq]
  exact { h with armed := rfl, levels := h.levels_append rfl }

theorem seqStep_agree (c : Config) (h : AgreeOn p s s') : AgreeOn p (seqStep c s) (seqStep c s') := by
  cases hph : s.ph with
  | idle => rwa [seqStep_idle c hph, seqStep_idle c (h.ph ▸ hph)]
  | scan i =>
    rw [seqStep_scan c hph, seqStep_scan c (h.ph ▸ hph)]
    exact { visitSlot_agree i h with ph := rfl }
  | rearm =>
    rw [seqStep_rearm c hph, seqStep_rearm c (h.ph ▸ hph)]
    exact { rearm_agree c h with ph := rfl }

theorem seqRun_agree (c : Config) (n : Nat) (h : AgreeOn p s s') :
    AgreeOn p (seqRun c n s) (seqRun c n s') := by
  induction n generalizing s s' with
  | zero => exact h
  | succ n ih => exact ih (seqStep_agree c h)

theorem tickOn_agree (c : Config) (h : AgreeOn p s s') : AgreeOn p (tickOn c s) (tickOn c s') := by
  have hacc : expiryAccepted s = expiryAccepted s' := by
    rw [expiryAccepted, expiryAccepted, h.armed, h.ph]
  rw [tickOn, tickOn, hacc]
  split
  · exact seqRun_agree c tickPhases (s := enterTick s) { h with armed := rfl, ph := rfl }
  · exact h

/-! ### The instructions -/

/-- `INIT` of any pin asks the platform and `RUN`, of which two agreeing states have the same view. -/
theorem initOn_agree (c : Config) (q : Pin) (h : AgreeOn p s s') :
    AgreeOn p (initOn c q s) (initOn c q s') := by
  cases hok : c.pinOk q with
  | false =>
    rw [initOn_refused hok, initOn_refused hok]
    exact { h with levels := h.levels_append rfl }
  | true =>
    cases hrun : s.run with
    | true =>
      rw [initOn_running hok hrun, initOn_running hok (h.run ▸ hrun)]
      exact { h with
        dir := readPin_writePin_congr h.dir q true
        sp := readPin_writePin_congr h.sp q 0
        acc := readPin_writePin_congr h.acc q 0
        reg := readPin_writePin_congr h.reg q true
        levels := h.levels_append rfl }
    | false =>
      rw [initOn_first hok hrun, initOn_first hok (h.run ▸ hrun)]
      exact { h with
        dir := readPin_writePin_congr h.dir q true
        sp := readPin_writePin_congr h.sp q 0
        acc := readPin_writePin_congr h.acc q 0
        reg := readPin_writePin_congr h.reg q true
        run := rfl
        armed := rfl
        levels := h.levels_append rfl }

/-- R110 for every instruction, on whichever pin. -/
theorem exec_agree {i : Instr} (h : AgreeOn p s s') (ht : exec i s = .next t)
    (ht' : exec i s' = .next t') : AgreeOn p t t' := by
  cases i with
  | init q =>
    rw [exec_init ht, exec_init ht']
    exact initOn_agree platform q h
  | start q =>
    rw [exec_start ht, exec_start ht']
    exact { h with reg := readPin_writePin_congr h.reg q true, levels := h.levels_append rfl }
  | stop q =>
    rw [exec_stop ht, exec_stop ht']
    exact { h with reg := readPin_writePin_congr h.reg q false, levels := h.levels_append rfl }
  | setsp q v =>
    rw [exec_setsp ht, exec_setsp ht']
    exact { h with sp := readPin_writePin_congr h.sp q v, levels := h.levels_append rfl }
  | getsp q =>
    rw [exec_getsp ht, exec_getsp ht']
    exact { h with levels := h.levels_append rfl }
  | tick =>
    rw [exec_tick ht, exec_tick ht']
    exact tickOn_agree platform h

/-! ### The transitions that are no instruction -/

/-- What happens where no instruction is taken is a step. -/
theorem OtherStep.step (ho : OtherStep s t) : step s = .next t := by
  cases ho with
  | reset k hr => exact step_reset hr
  | sequencer hr hp => rw [step_takeNext hr, takeNext_inside platform hp, perform]
  | illegal w e hr hp hf hc hd =>
    simp only [step_takeNext hr, takeNext_idle platform hp hf, hc, acceptCommand, hd, perform]
  | arrival i rest hr hp hf hc hi =>
    simp only [step_takeNext hr, takeNext_idle platform hp hf, hc, hi, perform]
  | rest hr hp hf hc hi =>
    simp only [step_takeNext hr, takeNext_idle platform hp hf, hc, hi, perform]

/-- A step without reset only adds to the record (R106). -/
theorem step_appends (hr : s.rst = none) (h : step s = .next t) :
    ∃ new, t.events = s.events ++ new := by
  rcases step_cases h with ⟨_, _, _, he⟩ | ⟨_, _, _, _, _, _, _, he⟩ | ho
  · obtain ⟨new, hev, -⟩ := Proofs.gpioCallsAndTheirEffect _ _ _ he
    exact ⟨new, hev⟩
  · obtain ⟨new, hev, -⟩ := Proofs.gpioCallsAndTheirEffect _ _ _ he
    exact ⟨new, hev⟩
  · cases ho with
    | reset k hk => exact absurd (hr.symm.trans hk) nofun
    | sequencer =>
      obtain ⟨new, hev, -⟩ := seqRun_modulates platform 0 tickPhases s
      exact ⟨new, hev⟩
    | illegal => exact ⟨_, rfl⟩
    | arrival => exact ⟨[], (List.append_nil _).symm⟩
    | rest => exact ⟨[], (List.append_nil _).symm⟩

/-- A reset between operations keeps the record as it is (R210). -/
theorem abandonAfter_zero (s : State) :
    abandonAfter platform 0 s =
      State.afterReset platform (s.resets + 1) s.clk s.inputs s.events := by
  obtain ⟨t, ht⟩ : ∃ t, perform (takeNext platform { s with rst := none }) = .next t :=
    perform_next _
  obtain ⟨new, hev⟩ := step_appends (s := { s with rst := none }) rfl ht
  rw [abandonAfter_eq platform 0 ht, hev]
  exact congrArg _ List.take_left

theorem afterReset_agree (c : Config) (h : AgreeOn p s s') :
    AgreeOn p (State.afterReset c (s.resets + 1) s.clk s.inputs s.events)
      (State.afterReset c (s'.resets + 1) s'.clk s'.inputs s'.events) := by
  rw [h.resets, h.inputs]
  exact ⟨rfl, rfl, rfl, rfl, rfl, rfl, rfl, rfl, rfl, rfl, rfl, rfl, rfl, h.levels⟩

/-- Agreeing states take the same transition where they take no instruction. -/
theorem otherStep_agree (hk : ∀ k, s.rst = some k → k = 0) (h : AgreeOn p s s')
    (ho : OtherStep s t) : ∃ t', OtherStep s' t' ∧ AgreeOn p t t' := by
  cases ho with
  | reset k hr =>
    obtain rfl := hk k hr
    refine ⟨_, .reset 0 (h.rst ▸ hr), ?_⟩
    rw [abandonAfter_zero, abandonAfter_zero]
    exact afterReset_agree platform h
  | sequencer hr hp =>
    exact ⟨_, .sequencer (h.rst ▸ hr) (h.ph ▸ hp), seqRun_agree platform tickPhases h⟩
  | illegal w e hr hp hf hc hd =>
    exact ⟨_, .illegal w e (h.rst ▸ hr) (h.ph ▸ hp) (h.fire ▸ hf) (h.cmd ▸ hc) hd,
      { h with cmd := rfl, levels := h.levels_append rfl }⟩
  | arrival i rest hr hp hf hc hi =>
    exact ⟨_, .arrival i rest (h.rst ▸ hr) (h.ph ▸ hp) (h.fire ▸ hf) (h.cmd ▸ hc) (h.inputs ▸ hi),
      { h with cmd := rfl, fire := rfl, rst := rfl, inputs := rfl }⟩
  | rest hr hp hf hc hi =>
    exact ⟨_, .rest (h.rst ▸ hr) (h.ph ▸ hp) (h.fire ▸ hf) (h.cmd ▸ hc) (h.inputs ▸ hi), h⟩

end Sys2Proof.Machine

namespace Sys2Proof.Proofs

open Sys2Proof.Machine Sys2Proof.Safety

/-- Settles O56: agreeing states take the same transition, and each transition keeps agreement. -/
theorem channelsAreIsolated : Obligations.ChannelsAreIsolated := by
  intro p s s' t t' hk h hs hs'
  rcases step_cases hs with ⟨hr, hp, hf, he⟩ | ⟨w, i, hr, hp, hf, hc, hd, he⟩ | ho
  · rw [StepsTo, step_expiry (h.rst ▸ hr) (h.ph ▸ hp) (h.fire ▸ hf)] at hs'
    have htaken : AgreeOn p { s with fire := false } { s' with fire := false } :=
      { h with fire := rfl }
    exact exec_agree htaken he hs'
  · rw [StepsTo, step_command (h.rst ▸ hr) (h.ph ▸ hp) (h.fire ▸ hf) (h.cmd ▸ hc) hd] at hs'
    have htaken : AgreeOn p { s with cmd := none } { s' with cmd := none } := { h with cmd := rfl }
    exact exec_agree htaken he hs'
  · obtain ⟨u, hu, hagree⟩ := otherStep_agree hk h ho
    obtain rfl : u = t' := Host.Outcome.next.inj (hu.step.symm.trans hs')
    exact hagree

end Sys2Proof.Proofs
end

section
/-! PROOF. The statements about the modulator and the tick: O28 to O33, O36. First the layer they rest on:
the modulator in closed form, runs of low ticks, the modulator that drives the opposite levels, and the
slot and the tick in numbers. -/

namespace Sys2Proof.Machine

open Safety

/-! ### The modulator in closed form -/

/-- R107 (a): the setpoints added, modulo 256. -/
theorem modAcc_toNat (a : BitVec 8) (s : Setpoint) (n : Nat) :
    (modAcc a s n).toNat = (a.toNat + n * s.toNat) % 256 := by
  have hsum := count_modLevels_add_modAcc a s n
  have hacc := (modAcc a s n).isLt
  omega

/-- R107 (a): one high tick for each 256 of the setpoints added. -/
theorem count_modLevels (a : BitVec 8) (s : Setpoint) (n : Nat) :
    (modLevels a s n).count true = (a.toNat + n * s.toNat) / 256 := by
  have hsum := count_modLevels_add_modAcc a s n
  have hacc := (modAcc a s n).isLt
  omega

theorem modLevel_succ (a : BitVec 8) (s : Setpoint) (n : Nat) :
    modLevel a s (n + 1) = decide (256 ≤ (modAcc a s n).toNat + s.toNat) :=
  modStep_level _ _

theorem modAcc_succ (a : BitVec 8) (s : Setpoint) (n : Nat) :
    (modAcc a s (n + 1)).toNat = ((modAcc a s n).toNat + s.toNat) % 256 :=
  modStep_acc _ _

/-- The level of a tick as a function of what has been added before it. -/
theorem modLevel_succ_closed (a : BitVec 8) (s : Setpoint) (n : Nat) :
    modLevel a s (n + 1) = decide (256 ≤ (a.toNat + n * s.toNat) % 256 + s.toNat) := by
  rw [modLevel_succ, modAcc_toNat]

/-- The accumulator is where it started when what was added is a multiple of 256. -/
theorem modAcc_eq_start_iff (a : BitVec 8) (s : Setpoint) (n : Nat) :
    modAcc a s n = a ↔ 256 ∣ s.toNat * n := by
  have ha := a.isLt
  rw [← BitVec.toNat_inj, modAcc_toNat, Nat.mul_comm s.toNat]
  omega

/-- R223: 255 of 256 ticks at most are high. -/
theorem exists_low_tick (a : BitVec 8) (s : Setpoint) :
    ∃ n, 1 ≤ n ∧ n ≤ 256 ∧ modLevel a s n = false := by
  by_contra! hhigh
  have hall : ∀ l ∈ modLevels a s 256, true = l := by
    intro l hl
    obtain ⟨k, hk, rfl⟩ := List.mem_map.1 hl
    have hk := List.mem_range.1 hk
    exact (Bool.eq_true_of_not_eq_false (hhigh (k + 1) (by omega) (by omega))).symm
  have hcount := List.count_eq_length.2 hall
  have hs := s.isLt
  rw [count_modLevels_256, length_modLevels] at hcount
  omega

/-! ### Distances between ticks of one level -/

/-- After a high tick less than one setpoint is left. -/
theorem modAcc_lt_of_high {a : BitVec 8} {s : Setpoint} {n : Nat}
    (h : modLevel a s (n + 1) = true) :
    (modAcc a s (n + 1)).toNat < s.toNat := by
  have hacc := (modAcc a s n).isLt
  have hs := s.isLt
  rw [modLevel_succ, decide_eq_true_eq] at h
  rw [modAcc_succ]
  omega

/-- Along d low ticks nothing is carried out. -/
theorem modAcc_low_run {a : BitVec 8} {s : Setpoint} {m d : Nat}
    (h : ∀ k, m < k → k ≤ m + d → modLevel a s k = false) :
    (modAcc a s (m + d)).toNat = (modAcc a s m).toNat + d * s.toNat := by
  induction d with
  | zero => simp
  | succ d ih =>
    have hlow := h (m + d + 1) (by omega) le_rfl
    have hacc := ih fun k hm hd => h k hm (by omega)
    rw [modLevel_succ, decide_eq_false_iff_not] at hlow
    rw [← Nat.add_assoc, modAcc_succ, Nat.mod_eq_of_lt (by omega), hacc, Nat.succ_mul,
      Nat.add_assoc]

/-- If d steps of size s stay below c and d + 2 steps pass it, then d + 1 is `floor(c/s)` or `ceil(c/s)`. -/
theorem succ_eq_floor_or_ceil {c d s : Nat} (hbelow : d * s < c) (habove : c < (d + 2) * s) :
    d + 1 = c / s ∨ d + 1 = (c + s - 1) / s := by
  have hstep : (d + 1) * s = d * s + s := Nat.succ_mul d s
  have hstep' : (d + 1 + 1) * s = (d + 1) * s + s := Nat.succ_mul (d + 1) s
  by_cases hle : (d + 1) * s ≤ c
  · exact .inl (Nat.div_eq_of_lt_le hle habove).symm
  · exact .inr (Nat.div_eq_of_lt_le (by omega) (by omega)).symm

/-- R109: two consecutive high ticks. What is left after the first is below s, and the second comes when
the setpoints added since then fill it up to 256. -/
theorem high_tick_distance {a : BitVec 8} {s : Setpoint} {m n : Nat} (hm : 1 ≤ m) (hmn : m < n)
    (hfirst : modLevel a s m = true) (hsecond : modLevel a s n = true)
    (hbetween : ∀ k, m < k → k < n → modLevel a s k = false) :
    n - m = 256 / s.toNat ∨ n - m = (256 + s.toNat - 1) / s.toNat := by
  obtain ⟨m, rfl⟩ := Nat.exists_eq_add_of_le' hm
  obtain ⟨d, rfl⟩ := Nat.exists_eq_add_of_lt hmn
  have hleft := modAcc_lt_of_high hfirst
  have hrun := modAcc_low_run fun k hk hd => hbetween k hk (Nat.lt_succ_of_le hd)
  have hacc := (modAcc a s (m + 1 + d)).isLt
  rw [modLevel_succ, decide_eq_true_eq, hrun] at hsecond
  have hsum : (d + 2) * s.toNat = d * s.toNat + 2 * s.toNat := Nat.add_mul d 2 _
  rw [Nat.add_assoc (m + 1), Nat.add_sub_cancel_left]
  exact succ_eq_floor_or_ceil (by omega) (by omega)

/-! ### The complement of a modulator -/

/-- The modulator that adds `256 - s` drives the opposite levels. -/
theorem modStep_complement (a : BitVec 8) {s : Setpoint} (hs : 0 < s.toNat) :
    modStep (~~~a) (-s) = (!(modStep a s).1, ~~~(modStep a s).2) := by
  have ha := a.isLt
  have hslt := s.isLt
  apply Prod.ext
  · rw [modStep_level, modStep_level, BitVec.toNat_not, BitVec.toNat_neg, ← decide_not]
    congr 1
    apply propext
    omega
  · apply BitVec.eq_of_toNat_eq
    rw [modStep_acc, BitVec.toNat_not, BitVec.toNat_not, modStep_acc, BitVec.toNat_neg]
    omega

theorem modAcc_complement (a : BitVec 8) {s : Setpoint} (hs : 0 < s.toNat) (n : Nat) :
    modAcc (~~~a) (-s) n = ~~~modAcc a s n := by
  induction n with
  | zero => rfl
  | succ n ih => rw [modAcc, ih, modStep_complement _ hs, modAcc]

theorem modLevel_complement (a : BitVec 8) {s : Setpoint} (hs : 0 < s.toNat) {n : Nat}
    (hn : 1 ≤ n) :
    modLevel (~~~a) (-s) n = !modLevel a s n := by
  obtain ⟨n, rfl⟩ := Nat.exists_eq_add_of_le' hn
  rw [modLevel, modAcc_complement a hs, modStep_complement _ hs, modLevel]

/-- R109: two consecutive low ticks are two consecutive high ticks of the complement. -/
theorem low_tick_distance {a : BitVec 8} {s : Setpoint} {m n : Nat} (hs : 0 < s.toNat) (hm : 1 ≤ m)
    (hmn : m < n) (hfirst : modLevel a s m = false) (hsecond : modLevel a s n = false)
    (hbetween : ∀ k, m < k → k < n → modLevel a s k = true) :
    n - m = 256 / (256 - s.toNat) ∨ n - m = (256 + (256 - s.toNat) - 1) / (256 - s.toNat) := by
  have hneg : (-s).toNat = 256 - s.toNat := by
    rw [BitVec.toNat_neg]
    omega
  rw [← hneg]
  refine high_tick_distance (a := ~~~a) hm hmn ?_ ?_ fun k hk hkn => ?_
  · rw [modLevel_complement a hs hm, hfirst, Bool.not_false]
  · rw [modLevel_complement a hs (by omega), hsecond, Bool.not_false]
  · rw [modLevel_complement a hs (by omega), hbetween k hk hkn, Bool.not_true]

/-! ### The slot and the tick -/

/-- A masked accumulator is the zero-extension of its low byte (R13). -/
theorem setWidth_setWidth_of_masked {x : Accumulator} (h : x.toNat < 256) :
    (x.setWidth 8).setWidth 16 = x := by
  apply BitVec.eq_of_toNat_eq
  simp only [BitVec.toNat_setWidth]
  omega

/-- R105: what an occupied slot does, by the modulator. -/
theorem slot_eq_modStep {i : Pin} {s : State} (h : (readPin s.acc i).toNat < 256) :
    slot i s =
      (let r := modStep ((readPin s.acc i).setWidth 8) (readPin s.sp i)
       { s with
         lvl := writePin s.lvl i r.1
         acc := writePin s.acc i (r.2.setWidth 16)
         events := s.events ++ [.gpioSetLevel i r.1] }) := by
  dsimp only
  rw [← carry_eq_modStep, ← maskSum_eq_modStep, setWidth_setWidth_of_masked h]
  rfl

/-- The calls of the slots are one for each occupied slot, in ascending order (R106). -/
theorem drives_eq_map (s : State) :
    (List.finRange 16).filterMap (driveOf s) =
      ((List.finRange 16).filter fun p => readPin s.reg p).map fun p => .gpioSetLevel p
        (decide (((readPin s.acc p).toNat + (readPin s.sp p).toNat) / 256 % 2 = 1)) := by
  rw [← List.filterMap_eq_map, List.filterMap_filter]
  refine congrArg (List.filterMap · _) (funext fun p => ?_)
  rw [driveOf, carry_eq]
  rfl

/-- The wrap test compares the readings as numbers (R121). -/
theorem wrapped_eq (now last : MaskedClock) : wrapped now last = decide (now.toNat < last.toNat) := rfl

/-- The masked reading is the sample modulo 2^31 (R120). -/
theorem maskClock_eq_ofNat_mod (x : ClockSample) :
    maskClock x = BitVec.ofNat 31 (x.toNat % 2147483648) := by
  rw [← maskClock_toNat, BitVec.ofNat_toNat, BitVec.setWidth_eq]

/-- A setpoint of 0 carries nothing out of a masked accumulator (R108). -/
theorem carry_zero_setpoint {x : Accumulator} (h : x.toNat < 256) : carry (slotSum x 0) = false := by
  rw [carry_eq, BitVec.ofNat_eq_ofNat, BitVec.toNat_zero, Nat.add_zero, Nat.div_eq_of_lt h]
  rfl

/-- An accepted expiry sets an occupied pin to its carry, and configures no pin (R103). -/
theorem exec_tick_drives {p : Pin} {s t : State} (h : exec .tick s = .next t)
    (ha : s.armed = true) (hp : s.ph = .idle) (hreg : readPin s.reg p = true) :
    readPin t.lvl p = carry (slotSum (readPin s.acc p) (readPin s.sp p)) ∧ t.dir = s.dir := by
  rw [exec_tick h, tickOn_eq platform ha hp]
  exact ⟨(readPin_ofFn p _).trans (if_pos hreg), rfl⟩

end Sys2Proof.Machine

namespace Sys2Proof.Proofs

open Sys2Proof.Machine Sys2Proof.Safety

/-- Settles O28: carry and mask of a slot's sum are level and accumulator of `mod_step`. -/
theorem slotIsTheModulatorStep : Obligations.SlotIsTheModulatorStep :=
  ⟨fun a s => ⟨modStep_level a s, modStep_acc a s⟩, fun _ _ => slot_eq_modStep⟩

/-- Settles O29: the window of 256 ticks is that of the accumulator reached after n. -/
theorem dutyTheorem : Obligations.DutyTheorem := by
  intro a s n
  refine ⟨modAcc_toNat a s n, modLevel_succ a s n, count_modLevels a s n, ?_, ?_⟩
  · rw [modAcc_add, modAcc_eq_start_iff]
    exact Nat.dvd_mul_left 256 s.toNat
  · rw [modLevels_add, List.drop_left' (length_modLevels a s n)]
    exact count_modLevels_256 _ s

/-- Settles O30: `256 ∣ s * k` says of k what `256 / gcd(s, 256) ∣ k` says. -/
theorem accumulatorPeriod : Obligations.AccumulatorPeriod := by
  intro a s k
  have hpos : 0 < Nat.gcd s.toNat 256 := Nat.gcd_pos_of_pos_right _ (by decide)
  rw [modAcc_eq_start_iff, Nat.div_dvd_iff_dvd_mul (Nat.gcd_dvd_right _ _) hpos, Nat.gcd_comm,
    Nat.dvd_gcd_mul_iff_dvd_mul]

/-- Settles O31: each sequence is read off the closed form. -/
theorem modulatorCornerCases : Obligations.ModulatorCornerCases := by
  refine ⟨fun a n => ⟨?_, ?_⟩, fun n hn => ?_, fun n hn => ?_, fun n hn => ?_, exists_low_tick⟩
  · cases n with
    | zero => rfl
    | succ n =>
      rw [modLevel_succ, decide_eq_false_iff_not, BitVec.ofNat_eq_ofNat, BitVec.toNat_zero, Nat.not_le]
      exact (modAcc a 0 n).isLt
  · rw [modAcc_eq_start_iff, BitVec.ofNat_eq_ofNat, BitVec.toNat_zero, Nat.zero_mul]
    exact Nat.dvd_zero 256
  all_goals
    obtain ⟨n, rfl⟩ := Nat.exists_eq_add_of_le' hn
    rw [modLevel_succ_closed, modAcc_toNat, decide_eq_decide]
    simp only [BitVec.ofNat_eq_ofNat, BitVec.toNat_ofNat]
    omega

/-- Settles O32: for low ticks the complement's setpoint `256 - s` takes the place of s. -/
theorem highTicksAreEvenlySpread : Obligations.HighTicksAreEvenlySpread :=
  fun _ _ _ _ hm hmn => ⟨fun _ => high_tick_distance hm hmn,
    fun hs => low_tick_distance (by omega) hm hmn⟩

/-- Settles O33: the tick as one update of the state, with carry, mask and reading as numbers. -/
theorem tickEffect : Obligations.TickEffect := by
  intro s ha hp
  have htick : exec .tick s = .next (tickOn platform s) := rfl
  rw [htick, tickOn_eq platform ha hp]
  simp only [carry_eq, maskSum_eq, drives_eq_map, adjustedDeadline, wrapped_eq, maskClock_toNat,
    decide_eq_true_eq, List.append_assoc]
  rw [maskClock_eq_ofNat_mod, hp]
  rfl

/-- Settles O36: the tick adds 0 to the accumulator, so it drives 0, and `STOP` leaves the level. -/
theorem idleLevelRecipe : Obligations.IdleLevelRecipe := by
  intro p s ha hp hreg hacc
  obtain ⟨t, ht⟩ := exec_next (.setsp p 0) s
  obtain ⟨u, hu⟩ := exec_next .tick t
  obtain ⟨v, hv⟩ := exec_next (.stop p) u
  refine ⟨t, u, v, ht, hu, hv, ?_⟩
  obtain rfl := exec_setsp ht
  obtain ⟨hlvl, hdir⟩ := exec_tick_drives hu ha hp hreg
  rw [readPin_writePin_same, carry_zero_setpoint hacc] at hlvl
  rw [exec_stop hv]
  exact ⟨hlvl, readPin_writePin_same _ _ _, congrArg (readPin · p) hdir⟩

end Sys2Proof.Proofs
end

section
/-! PROOF. The statements about the timer rearm: O38 to O41, O44 to O46. First the layer they rest on: the
sum as the nearest number and when it is exact, the rounding to an integer, and what a tick and a row of
ticks do to the deadline. -/

namespace Sys2Proof.Machine.Binary64

/-! ### The sum -/

/-- The powers of two up to the bound of overflow. -/
theorem pow_le_overflow {k : Nat} (h : k ≤ 2097) : 2 ^ k ≤ 2 ^ 2097 := by
  rw [Nat.pow_le_pow_iff_right Nat.one_lt_two]
  exact h

/-- Rounding a magnitude is rounding its ratio to 1. -/
theorem quotient_one (n : Nat) : quotientExp n 1 = roundExp n ∧ quotientSig n 1 = roundSig n := by
  have hexp : quotientExp n 1 = roundExp n := by rw [quotientExp, Nat.div_one, roundExp]
  exact ⟨hexp, by rw [quotientSig, hexp, Nat.one_mul, ← roundSig]⟩

/-- The number with the other sign bit. -/
theorem exists_scaled_neg (z : NUM) : ∃ y : NUM, scaled y = -scaled z := by
  obtain ⟨y, hy⟩ : ∃ y : NUM, y.toNat = (z.toNat + 2 ^ 63) % 2 ^ 64 :=
    ⟨BitVec.ofNat 64 (z.toNat + 2 ^ 63), BitVec.toNat_ofNat _ _⟩
  have hz := z.isLt
  have hmod : y.toNat % 2 ^ 63 = z.toNat % 2 ^ 63 := by omega
  have hneg : negative y = !negative z := by
    rw [negative_eq, negative_eq, ← decide_not, decide_eq_decide]
    omega
  refine ⟨y, ?_⟩
  rw [scaled, scaled, hneg, magnitude_eq y, hmod, ← magnitude_eq]
  cases negative z <;> simp

/-- No binary64 is nearer to a magnitude than the number chosen for it. -/
theorem roundSig_nearest (n : Nat) (z : NUM) :
    let rounded : Int := (roundSig n * 2 ^ roundExp n : Nat)
    (rounded - n).natAbs ≤ (scaled z - n).natAbs ∧
      ((rounded - n).natAbs = (scaled z - n).natAbs → scaled z ≠ rounded → roundSig n % 2 = 0) := by
  have h := quotientSig_nearest (n := n) Nat.one_pos z
  obtain ⟨hexp, hsig⟩ := quotient_one n
  simpa only [hexp, hsig, Nat.cast_one, Int.mul_one, Nat.cast_mul, Nat.cast_pow, Nat.cast_ofNat] using h

theorem roundScaled_toNat {n : Int} (h : n.natAbs < 2 ^ 2097) :
    (roundScaled n).toNat =
      (if n < 0 then 2 ^ 63 else 0) + (roundExp n.natAbs * 2 ^ 52 + roundSig n.natAbs) := by
  have hlt := roundMagnitude_noOverflow h
  rw [roundScaled, roundMagnitude_eq, Nat.min_eq_left hlt.le, BitVec.toNat_ofNat]
  clear h
  split <;> omega

/-- A number of at least 2^52 last places 2^e is a multiple of that place. -/
theorem exists_multiple {x : NUM} {e : Nat} (h : 2 ^ 52 * 2 ^ e ≤ (scaled x).natAbs) :
    ∃ t : Int, scaled x = t * 2 ^ e :=
  (scaled_grid x e).resolve_right (by omega)

section Sum

variable {a b : NUM} (ha : isFinite a = true) (hb : isFinite b = true)
include ha hb

/-- The last bit of a sum is that of the significand. -/
theorem add_last_bit (h : (scaled a + scaled b).natAbs < 2 ^ 2097) :
    (add a b).getLsbD 0 = decide (roundSig (scaled a + scaled b).natAbs % 2 = 1) := by
  simp only [add, ha, hb, Bool.and_self, if_true, addFinite]
  by_cases h0 : scaled a + scaled b = 0
  · rw [if_pos h0, h0]
    split <;> rfl
  · rw [if_neg h0, BitVec.getLsbD, roundScaled_toNat h, Nat.testBit_zero, decide_eq_decide]
    clear h
    split <;> omega

/-- R124: a sum that does not overflow is rounded to nearest, ties to even; below 0 the distances are those
of the numbers with the other sign. -/
theorem add_nearest (h : (scaled a + scaled b).natAbs < 2 ^ 2097) (z : NUM) :
    let error := fun x : NUM => (scaled x - (scaled a + scaled b)).natAbs
    error (add a b) ≤ error z ∧
      (error (add a b) = error z → scaled z ≠ scaled (add a b) → (add a b).getLsbD 0 = false) := by
  have hbit := add_last_bit ha hb h
  have hvalue := (add_spec ha hb h).2
  obtain ⟨y, hy⟩ := exists_scaled_neg z
  have hz := roundSig_nearest (scaled a + scaled b).natAbs z
  have hyz := roundSig_nearest (scaled a + scaled b).natAbs y
  clear h
  intro error
  simp only [error, hvalue, hbit, decide_eq_false_iff_not]
  rw [hy] at hyz
  generalize scaled a + scaled b = sum at *
  generalize ((roundSig sum.natAbs * 2 ^ roundExp sum.natAbs : Nat) : Int) = rounded at *
  by_cases hneg : sum < 0
  · rw [if_pos hneg]
    omega
  · rw [if_neg hneg]
    omega

/-- A sum below 2^(53 + k) units is off by at most half a last place, which is 2^k at most. -/
theorem add_error {k : Nat} (h : (scaled a + scaled b).natAbs < 2 ^ (53 + k)) (hk : k ≤ 2044) :
    isFinite (add a b) = true ∧
      2 * (scaled (add a b) - (scaled a + scaled b)).natAbs ≤ 2 ^ k := by
  have hexp : roundExp (scaled a + scaled b).natAbs ≤ k := by
    rcases Nat.eq_zero_or_pos (roundExp (scaled a + scaled b).natAbs) with h0 | hpos
    · omega
    · have hlt := (roundExp_bounds hpos).1.trans_lt h
      rw [← Nat.pow_add, Nat.pow_lt_pow_iff_right Nat.one_lt_two] at hlt
      omega
  obtain ⟨hfin, hvalue⟩ := add_spec ha hb (h.trans_le (pow_le_overflow (by omega)))
  have herror := roundSig_error (scaled a + scaled b).natAbs
  have hplace : 2 ^ roundExp (scaled a + scaled b).natAbs ≤ 2 ^ k := Nat.pow_le_pow_right (by omega) hexp
  refine ⟨hfin, ?_⟩
  rw [hvalue]
  split <;> omega

/-- A sum of at most 53 significant bits is exact. -/
theorem add_exact {t : Int} {e : Nat} (h : scaled a + scaled b = t * 2 ^ e) (ht : t.natAbs ≤ 2 ^ 53)
    (he : e < 2044) :
    isFinite (add a b) = true ∧ scaled (add a b) = scaled a + scaled b := by
  have habs : (scaled a + scaled b).natAbs = t.natAbs * 2 ^ e := by
    rw [h, Int.natAbs_mul, Int.natAbs_pow]
    rfl
  have hlt : (scaled a + scaled b).natAbs < 2 ^ 2097 := by
    calc (scaled a + scaled b).natAbs ≤ 2 ^ 53 * 2 ^ e := habs ▸ Nat.mul_le_mul_right _ ht
      _ = 2 ^ (53 + e) := (Nat.pow_add 2 53 e).symm
      _ < 2 ^ (53 + e + 1) := Nat.pow_lt_pow_succ Nat.one_lt_two
      _ ≤ 2 ^ 2097 := pow_le_overflow (by omega)
  obtain ⟨hfin, hvalue⟩ := add_spec ha hb hlt
  rw [round_exact habs ht] at hvalue
  refine ⟨hfin, ?_⟩
  rw [hvalue]
  clear hlt
  split <;> omega

/-- A power of two is taken exactly from a number between its half and its double: the number is a multiple
of the last place at the half, and in that place the difference has at most 53 bits. -/
theorem add_exact_of_half_to_double {e : Nat} (he : e < 2044) (hlow : 2 ^ 52 * 2 ^ e ≤ scaled a)
    (hhigh : scaled a ≤ 2 ^ 54 * 2 ^ e) (hvalue : scaled b = -(2 ^ 53 * 2 ^ e)) :
    isFinite (add a b) = true ∧ scaled (add a b) = scaled a + scaled b := by
  obtain ⟨t, ht⟩ : ∃ t : Int, scaled a = t * 2 ^ e :=
    exists_multiple (by exact_mod_cast hlow.trans Int.le_natAbs)
  have hplace : (0 : Int) < 2 ^ e := Int.pow_pos (by decide)
  rw [ht] at hlow hhigh
  have htlow : 2 ^ 52 ≤ t := Int.le_of_mul_le_mul_right hlow hplace
  have hthigh : t ≤ 2 ^ 54 := Int.le_of_mul_le_mul_right hhigh hplace
  refine add_exact ha hb (t := t - 2 ^ 53) (e := e) ?_ (by omega) he
  rw [ht, hvalue]
  ring

end Sum

/-! ### The rounding to an integer -/

/-- Half a unit added before a division by the unit gives the nearest multiple, the upper one on a tie. -/
theorem nearest_of_half_up {m u : Nat} (hu : 0 < u) :
    2 * ((2 * m + u) / (2 * u) * u) ≤ 2 * m + u ∧ 2 * m < 2 * ((2 * m + u) / (2 * u) * u) + u := by
  have hdiv := Nat.div_add_mod (2 * m + u) (2 * u)
  have hmod := Nat.mod_lt (2 * m + u) (by omega : 0 < 2 * u)
  rw [Nat.mul_assoc, Nat.mul_comm u] at hdiv
  omega

/-- R124: `roundInt` gives the nearest integer, ties away from zero. -/
theorem roundInt_nearest {x : NUM} (hx : isFinite x = true) :
    2 * (roundInt x * oneUnit - scaled x).natAbs ≤ oneUnit ∧
      (2 * (roundInt x * oneUnit - scaled x).natAbs = oneUnit →
        (scaled x).natAbs < (roundInt x * oneUnit).natAbs) := by
  have hu := oneUnit_pos
  obtain ⟨hlow, hhigh⟩ := nearest_of_half_up (m := magnitude x) hu
  simp only [roundInt, hx, if_true, scaled]
  generalize (2 * magnitude x + oneUnit) / (2 * oneUnit) = k at *
  cases negative x
  · simp only [Bool.false_eq_true, if_false, ← Nat.cast_mul]
    omega
  · simp only [if_true, Int.neg_mul, ← Nat.cast_mul]
    omega

/-- Ties up and ties away from zero are the same but for a tie below 0. -/
theorem roundInt_eq_floor {x : NUM} (hx : isFinite x = true)
    (h : 0 ≤ scaled x ∨ 2 * (roundInt x * oneUnit - scaled x).natAbs ≠ oneUnit) :
    roundInt x = (2 * scaled x + oneUnit) / (2 * oneUnit) := by
  have hu := oneUnit_pos
  obtain ⟨hnear, htie⟩ := roundInt_nearest hx
  have hsign : roundInt x * oneUnit ≤ -oneUnit ∨ 0 ≤ roundInt x * oneUnit := by
    rcases lt_or_ge (roundInt x) 0 with hneg | hpos
    · exact .inl (by nlinarith)
    · exact .inr (by positivity)
  have hmul : roundInt x * (2 * oneUnit) = 2 * (roundInt x * oneUnit) := by ring
  refine ((Int.ediv_eq_iff_of_pos (by omega)).2 ?_).symm
  rw [hmul]
  omega

end Sys2Proof.Machine.Binary64

namespace Sys2Proof.Machine

open Safety

/-! ### The deadline of a tick -/

/-- The wrap adjustment adds the number -2^31 exactly (R122). -/
theorem ofInt_negWrap : Binary64.isFinite (Binary64.ofInt (-2147483648)) = true ∧
    Binary64.scaled (Binary64.ofInt (-2147483648)) = -2147483648 * Binary64.oneUnit :=
  Proofs.ofIntIsExactBelow53Bits (-2147483648) (by decide)

/-- The first deadline, n0 + UPS, is exact (R7, R141). -/
theorem scaled_firstDeadline (c : Config) (clk : ClockSample) :
    Binary64.scaled (Binary64.ofInt ((maskClock clk).toNat + c.ups)) =
      ((clk.toNat % 2147483648 : Nat) + (c.ups : Nat)) * Binary64.oneUnit := by
  have hnow := (maskClock clk).isLt
  have hups := c.ups_range.2
  rw [wrapPeriod] at hups
  rw [(Proofs.ofIntIsExactBelow53Bits _ (by omega)).2, maskClock_toNat]

section Tick

variable {c : Config} {s : State} (hacc : expiryAccepted s = true)
include hacc

theorem armed_idle_of_accepted : s.armed = true ∧ s.ph = .idle := by
  simpa [expiryAccepted] using hacc

/-- What a tick leaves in the timing registers and last in the record (R123, R125, R127). -/
theorem tickOn_timing :
    (tickOn c s).last = maskClock s.clk ∧
      (tickOn c s).next = c.num.add (adjustedDeadline c (maskClock s.clk) s) c.timeDelta ∧
      (tickOn c s).events.getLast? = some (.timerArm (BitVec.ofInt 32
        (c.num.roundInt (tickOn c s).next - (maskClock s.clk).toNat))) := by
  obtain ⟨ha, hp⟩ := armed_idle_of_accepted hacc
  rw [tickOn_eq c ha hp]
  exact ⟨rfl, rfl, by simp⟩

/-- After a tick the next expiry is accepted, and `RUN` is what it was (R16, R185). -/
theorem tickOn_accepts : expiryAccepted (tickOn c s) = true ∧ (tickOn c s).run = s.run := by
  obtain ⟨ha, hp⟩ := armed_idle_of_accepted hacc
  rw [tickOn_eq c ha hp]
  exact ⟨by simp [expiryAccepted, hp], rfl⟩

/-- A tick whose sums are exact advances the deadline by `TIME_DELTA`, less a wrap period if the clock has
wrapped (R122, R123). -/
theorem tickOn_deadline (hnum : c.num = Binary64.numerics) (hexact : tickExact c s.clk s) :
    Binary64.isFinite (tickOn c s).next = true ∧
      Binary64.scaled (tickOn c s).next = Binary64.scaled s.next + Binary64.scaled c.timeDelta -
        (if wrapped (maskClock s.clk) s.last then 1 else 0 : Nat) *
          (2147483648 * Binary64.oneUnit) := by
  obtain ⟨hadjust, hfin, hadvance⟩ := hexact
  rw [(tickOn_timing hacc).2.1]
  refine ⟨hfin, ?_⟩
  rw [hadvance, adjustedDeadline]
  split
  · next hwrap =>
    have hofInt : Binary64.scaled (c.num.ofInt (-(wrapPeriod : Int))) =
        -2147483648 * Binary64.oneUnit := by
      rw [hnum]
      exact ofInt_negWrap.2
    rw [(hadjust hwrap).2, hofInt]
    ring
  · ring

end Tick

/-! ### Consecutive ticks -/

theorem ticksAt_append (c : Config) (samples : List ClockSample) (clk : ClockSample) (s : State) :
    ticksAt c (samples ++ [clk]) s = tickAt c clk (ticksAt c samples s) := by
  induction samples generalizing s with
  | nil => rfl
  | cons first rest ih => exact ih (tickAt c first s)

theorem ticksAt_accepts (c : Config) (samples : List ClockSample) {s : State}
    (hacc : expiryAccepted s = true) :
    expiryAccepted (ticksAt c samples s) = true ∧ (ticksAt c samples s).run = s.run := by
  induction samples generalizing s with
  | nil => exact ⟨hacc, rfl⟩
  | cons clk rest ih =>
    obtain ⟨haccepts, hrun⟩ := tickOn_accepts (c := c) (s := { s with clk := clk }) hacc
    obtain ⟨hrest, hrunRest⟩ := ih haccepts
    exact ⟨hrest, hrunRest.trans hrun⟩

/-- R129: without rounding errors the deadline drifts only by the wraps. -/
theorem ticksAt_deadline {c : Config} (hnum : c.num = Binary64.numerics) (samples : List ClockSample)
    {s : State} (hacc : expiryAccepted s = true) (hexact : ticksExact c samples s) :
    Binary64.scaled (ticksAt c samples s).next =
      Binary64.scaled s.next + samples.length * Binary64.scaled c.timeDelta -
        (wrapCount samples s.last : Nat) * (2147483648 * Binary64.oneUnit) := by
  induction samples generalizing s with
  | nil => simp [ticksAt, wrapCount]
  | cons clk rest ih =>
    obtain ⟨htick, hticks⟩ := hexact
    have hfirst : Binary64.scaled (tickAt c clk s).next = Binary64.scaled s.next +
        Binary64.scaled c.timeDelta - (if wrapped (maskClock clk) s.last then 1 else 0 : Nat) *
          (2147483648 * Binary64.oneUnit) :=
      (tickOn_deadline (s := { s with clk := clk }) hacc hnum htick).2
    have haccepts : expiryAccepted (tickAt c clk s) = true :=
      (tickOn_accepts (s := { s with clk := clk }) hacc).1
    have hlast : (tickAt c clk s).last = maskClock clk :=
      (tickOn_timing (s := { s with clk := clk }) hacc).1
    rw [ticksAt, ih haccepts hticks, hfirst, hlast,
      wrapCount, List.length_cons]
    push_cast
    ring

/-- After a tick at the end, `LAST` is its reading and the last call arms the timer (R125, R127). -/
theorem ticksAt_last {c : Config} {samples : List ClockSample} {clk : ClockSample} {s : State}
    (hacc : expiryAccepted s = true) (hclk : samples.getLast? = some clk) :
    (ticksAt c samples s).last = maskClock clk ∧
      (ticksAt c samples s).events.getLast? = some (.timerArm (BitVec.ofInt 32
        (c.num.roundInt (ticksAt c samples s).next - (maskClock clk).toNat))) := by
  obtain ⟨front, rfl⟩ := List.getLast?_eq_some_iff.1 hclk
  rw [ticksAt_append]
  obtain ⟨hlast, -, harm⟩ := tickOn_timing (c := c)
    (s := { ticksAt c front s with clk := clk }) (ticksAt_accepts c front hacc).1
  exact ⟨hlast, harm⟩

/-! ### The unbounded clock -/

/-- Between two readings less than a wrap period apart the masked reading falls exactly if a wrap lies
between them, and no second one does (R121). -/
theorem mod_lt_iff_wrap {U V : Nat} (hUV : U ≤ V) (hlt : V - U < 2147483648) :
    (V % 2147483648 < U % 2147483648 ↔ V / 2147483648 = U / 2147483648 + 1) ∧
      V / 2147483648 =
        U / 2147483648 + if V % 2147483648 < U % 2147483648 then 1 else 0 := by
  split <;> omega

end Sys2Proof.Machine

namespace Sys2Proof.Proofs

open Sys2Proof.Machine Sys2Proof.Safety

/-- Settles O38: the sum does not overflow, so it is the exact sum rounded to nearest. -/
theorem sumIsNearestTiesToEven : Obligations.SumIsNearestTiesToEven := by
  intro a b ha hb hlt
  rw [Binary64.mul_oneUnit] at hlt
  have hnot := hlt.trans_le (Binary64.pow_le_overflow (by omega))
  exact ⟨(Binary64.add_spec ha hb hnot).1, fun z _ => Binary64.add_nearest ha hb hnot z⟩

/-- Settles O39: below 2^32 the last place is at most 2^-21. -/
theorem sumErrorBelowDeadlineRange : Obligations.SumErrorBelowDeadlineRange := by
  intro a b ha hb hlt
  rw [Binary64.mul_oneUnit, show 32 + 1074 = 53 + 1053 by rfl] at hlt
  obtain ⟨hfin, herror⟩ := Binary64.add_error ha hb hlt (by omega)
  refine ⟨hfin, ?_⟩
  have hunit : Binary64.oneUnit = 2 ^ 21 * 2 ^ 1053 := by rw [Binary64.oneUnit_eq, ← Nat.pow_add]
  rw [hunit]
  omega

/-- Settles O40: 2^31 is taken from a number between its half and its double. -/
theorem wrapAdjustmentIsExact : Obligations.WrapAdjustmentIsExact := by
  intro x hx hlow hhigh
  obtain ⟨hfin, hvalue⟩ := ofInt_negWrap
  obtain ⟨e, he, hunit⟩ : ∃ e < 2044, Binary64.oneUnit = 2 ^ 22 * 2 ^ e :=
    ⟨1052, by decide, by rw [Binary64.oneUnit_eq, ← Nat.pow_add]⟩
  rw [hunit] at hlow hhigh hvalue ⊢
  push_cast at hlow hhigh hvalue ⊢
  obtain ⟨hfinite, hexact⟩ := Binary64.add_exact_of_half_to_double hx hfin he (by omega) (by omega)
    (by omega)
  exact ⟨hfinite, by omega⟩

/-- Settles O41: half a unit added before the division rounds the magnitude to nearest, ties up. -/
theorem roundIntIsNearestTiesAway : Obligations.RoundIntIsNearestTiesAway :=
  fun _ => Binary64.roundInt_nearest

/-- Settles O45: the wrap period taken from the deadline is the one by which the unbounded clock has passed
the masked reading, so deadline and delay are those of the unbounded clock. -/
theorem wraparoundLaw : Obligations.WraparoundLaw := by
  intro c s U V hnum hacc hUV hlt hU hV hexact
  have hnow : (maskClock s.clk).toNat = V % 2147483648 := (maskClock_toNat s.clk).trans hV
  have hwrap : wrapped (maskClock s.clk) s.last = decide (V % 2147483648 < U % 2147483648) := by
    rw [wrapped_eq, hnow, hU]
  obtain ⟨hiff, hperiods⟩ := mod_lt_iff_wrap hUV hlt
  obtain ⟨hlast, -, harm⟩ := tickOn_timing (c := c) hacc
  obtain ⟨hfin, hnext⟩ := tickOn_deadline hacc hnum hexact
  have hroundInt : c.num.roundInt = Binary64.roundInt := by rw [hnum]; rfl
  have hsplit : (V : Int) = (V % 2147483648 : Nat) + (V / 2147483648 : Nat) * 2147483648 := by omega
  have herror : (Binary64.roundInt (tickOn c s).next - (V % 2147483648 : Nat)) * Binary64.oneUnit -
      (Binary64.scaled (tickOn c s).next +
        (V / 2147483648 : Nat) * (2147483648 * Binary64.oneUnit) - V * Binary64.oneUnit) =
      Binary64.roundInt (tickOn c s).next * Binary64.oneUnit - Binary64.scaled (tickOn c s).next := by
    rw [hsplit]
    ring
  refine ⟨by rw [hwrap, decide_eq_true_iff, hiff], by rw [hlast, hnow], _, _, rfl, ?_, rfl, ?_, ?_, ?_⟩
  · rw [hnext, hwrap, hperiods]
    simp only [decide_eq_true_eq]
    push_cast
    ring
  · rw [harm, hroundInt, hnow]
  · rw [herror]
    exact (Binary64.roundInt_nearest hfin).1
  · rw [herror]
    intro hcase
    have hpos : (2 * Binary64.oneUnit : Int) ≠ 0 := by have := Binary64.oneUnit_pos; omega
    have hshift : 2 * (Binary64.scaled (tickOn c s).next +
        (V / 2147483648 : Nat) * (2147483648 * Binary64.oneUnit)) + Binary64.oneUnit =
        2 * Binary64.scaled (tickOn c s).next + Binary64.oneUnit +
          (V / 2147483648 : Nat) * 2147483648 * (2 * Binary64.oneUnit) := by ring
    rw [hshift, Int.add_mul_ediv_right _ _ hpos, ← Binary64.roundInt_eq_floor hfin hcase]
    omega

/-- Settles O46: `INIT` sets the first deadline, and each tick after it advances the deadline exactly. -/
theorem driftCompensationLaw : Obligations.DriftCompensationLaw := by
  intro c p s samples hnum hok hrun hph hexact
  obtain ⟨s₀, hs₀⟩ : ∃ s₀, s₀ = initOn c p s := ⟨_, rfl⟩
  have hinit := hs₀.trans (initOn_first hok hrun)
  have hnext : s₀.next = Binary64.ofInt ((maskClock s.clk).toNat + c.ups) := by
    rw [hinit, hnum]
    rfl
  have hacc : expiryAccepted s₀ = true := by simp [hinit, expiryAccepted, hph]
  obtain ⟨haccepts, hrunEnd⟩ := ticksAt_accepts c samples hacc
  rw [← hs₀] at hexact ⊢
  refine ⟨_, rfl, ?_, by rw [hrunEnd, hinit], (armed_idle_of_accepted haccepts).1, fun clk hclk => ?_⟩
  · rw [ticksAt_deadline hnum samples hacc hexact, hnext, scaled_firstDeadline, hinit]
  · obtain ⟨hlast, harm⟩ := ticksAt_last (c := c) hacc hclk
    rw [hlast, harm, hnum, maskClock_toNat]
    exact ⟨rfl, rfl⟩

/-- Settles O44: both calls as updates of the state, and the port value as a residue modulo 2^32. -/
theorem rearmCallsAndTheDelayPort : Obligations.RearmCallsAndTheDelayPort := by
  intro d s
  refine ⟨rfl, ?_, ?_, fun hlow hhigh => ?_⟩
  · rw [timerArm_eq, timerDisarm_eq, List.append_assoc]
    rfl
  · rw [BitVec.toNat_ofInt]
    omega
  · rw [BitVec.toInt_ofInt]
    exact Int.bmod_eq_of_le hlow hhigh

end Sys2Proof.Proofs
end

section
/-! PROOF. The statements about the lifecycle of a channel: O22 to O27, O54. First the layer they rest on:
what an accepted `INIT` does to the registers of the pins, and what moves a lifecycle state. -/

namespace Sys2Proof.Machine

/-! ### INIT -/

/-- R140, R143: the registers of the pins after a successful `INIT`, whether it is the first success or a
later one. -/
theorem initOn_channel {c : Config} {p : Pin} (h : c.pinOk p = true) (s : State) :
    (initOn c p s).reg = writePin s.reg p true ∧ (initOn c p s).dir = writePin s.dir p true ∧
      (initOn c p s).sp = writePin s.sp p 0 ∧ (initOn c p s).acc = writePin s.acc p 0 ∧
      (initOn c p s).lvl = s.lvl := by
  cases hrun : s.run with
  | true => simp [initOn_running h hrun]
  | false => simp [initOn_first h hrun]

/-- R143: the configuration is the first call of a successful `INIT`. -/
theorem initOn_configures {c : Config} {p : Pin} (h : c.pinOk p = true) (s : State) :
    ∃ rest, (initOn c p s).events =
      s.events ++ .gpioConfigure p c.pullMode true true :: rest := by
  cases hrun : s.run with
  | true => exact ⟨_, by rw [initOn_running h hrun]⟩
  | false => exact ⟨_, by rw [initOn_first h hrun]⟩

/-- R126, R141: the port carries the first delay, one second, as the low 32 bits of `UPS`. -/
theorem firstDelay_eq (c : Config) : BitVec.ofInt 32 c.ups = BitVec.ofNat 32 c.ups :=
  BitVec.ofInt_natCast 32 c.ups

/-! ### STOP -/

/-- R146: `STOP` on an empty slot leaves every register. -/
theorem exec_stop_empty {p : Pin} {s : State} (h : readPin s.reg p = false) :
    exec (.stop p) s = .next { s with
      events := s.events ++ [.respond { status := .ok, data := 0 }] } := by
  obtain ⟨t, hexec, ht, -⟩ := Proofs.stopUnregistersTheChannelOnly p s
  rw [hexec, ht, writePin_unchanged s.reg p false h]

/-! ### The lifecycle state -/

section Lifecycle

variable {p : Pin} {s t : State}

/-- A registered channel is running if its pin is an output (R147). -/
theorem lifecycle_of_registered (h : readPin s.reg p = true) :
    lifecycle s p = if readPin s.dir p then .running else .registeredUnconfigured := by
  cases hdir : readPin s.dir p <;> simp [lifecycle, h, hdir]

/-- A channel out of the registry is stopped if its pin is an output (R147). -/
theorem lifecycle_of_unregistered (h : readPin s.reg p = false) :
    lifecycle s p = if readPin s.dir p then .stopped else .unconfigured := by
  cases hdir : readPin s.dir p <;> simp [lifecycle, h, hdir]

/-- The lifecycle state depends on `REG[p]` and `DIR[p]` only (R147). -/
theorem lifecycle_congr (hreg : readPin t.reg p = readPin s.reg p)
    (hdir : readPin t.dir p = readPin s.dir p) : lifecycle t p = lifecycle s p := by
  rw [lifecycle, hreg, hdir, lifecycle]

/-- R147: only `INIT`, `START` and `STOP` of a pin move the lifecycle state of its channel. -/
theorem lifecycle_exec {i : Instr} (h : exec i s = .next t) (hinit : i ≠ .init p)
    (hstart : i ≠ .start p) (hstop : i ≠ .stop p) : lifecycle t p = lifecycle s p := by
  obtain ⟨hpins, -⟩ := Proofs.eachRegisterHasItsWriters i s t h
  obtain ⟨hreg, -, -, hdir, -⟩ := hpins p
  exact lifecycle_congr (hreg hinit hstart hstop) (hdir hinit)

/-- R143, R147: a successful `INIT` leads to running from every state. -/
theorem lifecycle_initOn_accepted {c : Config} (h : c.pinOk p = true) (s : State) :
    lifecycle (initOn c p s) p = .running := by
  obtain ⟨hreg, hdir, -⟩ := initOn_channel h s
  rw [lifecycle_of_registered (by rw [hreg, readPin_writePin_same]), hdir, readPin_writePin_same,
    if_pos rfl]

/-- R147: `START` registers the channel and keeps `DIR[p]`. -/
theorem lifecycle_start (h : exec (.start p) s = .next t) :
    lifecycle t p = if readPin s.dir p then .running else .registeredUnconfigured := by
  rw [exec_start h]
  exact lifecycle_of_registered (readPin_writePin_same s.reg p true)

/-- R147: `STOP` unregisters the channel and keeps `DIR[p]`. -/
theorem lifecycle_stop (h : exec (.stop p) s = .next t) :
    lifecycle t p = if readPin s.dir p then .stopped else .unconfigured := by
  rw [exec_stop h]
  exact lifecycle_of_unregistered (readPin_writePin_same s.reg p false)

end Lifecycle

end Sys2Proof.Machine

namespace Sys2Proof.Proofs

open Sys2Proof.Machine

/-- Settles O54: such a run changes the channel by modulator steps only, and a masked accumulator is the
zero-extension of its low byte. -/
theorem accumulatorContinuity : Obligations.AccumulatorContinuity := by
  intro p k s t ha hmasked hrun
  obtain ⟨new, hev, hsp, hmod⟩ := runsTo_modulates ha hrun
  obtain ⟨hlevels, hacc⟩ := hmod _ (setWidth_setWidth_of_masked hmasked).symm
  exact ⟨new, hev, hlevels, hacc, hsp⟩

/-- Settles O23: the three cases of `INIT` on the machine's platform. -/
theorem initEffect : Obligations.InitEffect := by
  intro p s
  refine congrArg Host.Outcome.next ?_
  by_cases hok : platform.pinOk p = false
  · rw [if_pos hok]
    exact initOn_refused hok s
  · rw [if_neg hok]
    replace hok := Bool.eq_true_of_not_eq_false hok
    by_cases hrun : s.run = true
    · rw [if_pos hrun, initOn_running hok hrun, pinData_eq]
    · rw [if_neg hrun, initOn_first hok (Bool.eq_false_iff.2 hrun), pinData_eq, firstDelay_eq,
        maskClock_toNat, maskClock_eq, Int.natCast_mod]
      rfl

/-- Settles O25: the two cases of an accepted `INIT`, with `RUN` 0 and with `RUN` 1. -/
theorem onlyTheFirstSuccessfulInitArmsTheTimer :
    Obligations.OnlyTheFirstSuccessfulInitArmsTheTimer := by
  intro c p s hok
  refine ⟨fun hrun => ⟨_, rfl, ?_⟩, fun hrun => ⟨_, rfl, ?_⟩⟩
  · rw [initOn_first hok hrun, pinData_eq, firstDelay_eq]
    exact ⟨maskClock_toNat s.clk, rfl, rfl, rfl, rfl⟩
  · rw [initOn_running hok hrun, pinData_eq]
    exact ⟨rfl, rfl, hrun, rfl, rfl⟩

/-- Settles O26: an accepted `INIT` writes the registers of its own pin only. -/
theorem successfulInitCreatesTheChannelAfresh :
    Obligations.SuccessfulInitCreatesTheChannelAfresh := by
  intro c p s hok
  obtain ⟨hreg, hdir, hsp, hacc, hlvl⟩ := initOn_channel hok s
  refine ⟨initOn_configures hok s, by simp [hreg], by simp [hdir], by simp [hsp], by simp [hacc], hlvl,
    fun q hq => ⟨lifecycle_congr ?_ ?_, ?_, ?_⟩⟩
  · rw [hreg, readPin_writePin_other _ _ _ _ hq]
  · rw [hdir, readPin_writePin_other _ _ _ _ hq]
  · rw [hsp, readPin_writePin_other _ _ _ _ hq]
  · rw [hacc, readPin_writePin_other _ _ _ _ hq]

/-- Settles O27: `INIT`, `START` and `STOP` move the channel of their own pin, and nothing else moves it. -/
theorem lifecycleTransitions : Obligations.LifecycleTransitions := by
  refine ⟨fun p => ?_, fun p q v s t => ⟨fun h => ?_, lifecycle_start, lifecycle_stop, fun h => ?_,
    fun h => ?_, fun h => ?_, fun hq h => ?_⟩⟩
  · obtain ⟨hreg, -, -, hdir, -⟩ := readPin_afterReset platform 0 Config.openClock [] [] p
    exact (lifecycle_of_unregistered hreg).trans (by rw [hdir]; rfl)
  · rw [exec_init h]
    cases hok : platform.pinOk p with
    | true =>
      obtain ⟨-, -, hsp, hacc, -⟩ := initOn_channel hok s
      rw [if_pos rfl, hsp, hacc, readPin_writePin_same, readPin_writePin_same]
      exact ⟨lifecycle_initOn_accepted hok s, rfl, rfl⟩
    | false =>
      rw [if_neg Bool.false_ne_true, initOn_refused hok]
      exact lifecycle_congr rfl rfl
  · exact lifecycle_exec h (by simp) (by simp) (by simp)
  · exact lifecycle_exec h (by simp) (by simp) (by simp)
  · exact lifecycle_exec h (by simp) (by simp) (by simp)
  · rcases h with h | h | h
    · exact lifecycle_exec h (by simp) (by simp [hq.symm]) (by simp)
    · exact lifecycle_exec h (by simp) (by simp) (by simp [hq.symm])
    · exact lifecycle_exec h (by simp [hq.symm]) (by simp) (by simp)

/-- Settles O22: the slot is empty after the first `STOP`, and after reset. -/
theorem stopIsIdempotent : Obligations.StopIsIdempotent := by
  refine ⟨fun _ _ => exec_stop_empty, fun p s => ?_, fun p => ?_⟩
  · obtain ⟨t, hexec, ht, -⟩ := stopUnregistersTheChannelOnly p s
    exact ⟨t, hexec, exec_stop_empty (by rw [ht]; exact readPin_writePin_same s.reg p false)⟩
  · exact (readPin_afterReset platform 0 Config.openClock [] [] p).1

/-- Settles O24: the refused case of `INIT`, on every platform. -/
theorem refusedInitChangesNoRegister : Obligations.RefusedInitChangesNoRegister :=
  fun _ _ s h => initOn_refused h s

end Sys2Proof.Proofs
end

section
/-! PROOF. The statements about the ready output and the arrival of inputs: O11, O15. First the layer they
rest on: what the ready output shows, and what an instruction and SEQ do at the command port. -/

namespace Sys2Proof.Machine

/-! ### The ready output and the command port -/

/-- R164, R183: while `rst_n` is high, ready means SEQ idle and no expiry pending. -/
theorem cmdReady_iff {s : State} (hr : s.rst = none) :
    cmdReady s = true ↔ s.ph = .idle ∧ s.fire = false := by
  simp [cmdReady, hr]

/-- No instruction writes the command port (R164). -/
theorem exec_keeps_cmd {i : Instr} {s t : State} (h : exec i s = .next t) : t.cmd = s.cmd := by
  obtain ⟨-, -, -, -, hcmd, -⟩ := Proofs.eachRegisterHasItsWriters i s t h
  exact hcmd

/-- SEQ does not write the command port (R50, R164). -/
theorem seqRun_keeps_cmd (c : Config) (n : Nat) (s : State) : (seqRun c n s).cmd = s.cmd :=
  (seqRun_ports c n s).1

/-- R165, R177: with a word presented, a transition that runs no instruction empties the command port
exactly when SEQ is idle and no expiry pends: it then answers an illegal word. -/
theorem otherStep_takes_cmd_iff {s t : State} {w : CommandWord} (hr : s.rst = none) (hc : s.cmd = some w)
    (ho : OtherStep s t) : t.cmd = none ↔ s.ph = .idle ∧ s.fire = false := by
  cases ho with
  | reset k hk => exact absurd (hr.symm.trans hk) nofun
  | sequencer _ hp => simp [seqRun_keeps_cmd, hc, hp]
  | illegal _ _ _ hp hf => exact ⟨fun _ => ⟨hp, hf⟩, fun _ => rfl⟩
  | arrival _ _ _ _ _ hnone => exact absurd (hc.symm.trans hnone) nofun
  | rest _ _ _ hnone => exact absurd (hc.symm.trans hnone) nofun

end Sys2Proof.Machine

namespace Sys2Proof.Proofs

open Sys2Proof.Machine

/-- Settles O15: the transition that takes a legal or an illegal word is the one of an idle SEQ with no
expiry pending; an expiry and a tick in progress leave the word at its port. -/
theorem commandIsTakenExactlyWhenReady : Obligations.CommandIsTakenExactlyWhenReady := by
  intro s t w hr hc h
  rw [cmdReady_iff hr]
  rcases step_cases h with ⟨-, -, hf, he⟩ | ⟨_, _, -, hp, hf, -, -, he⟩ | ho
  · simp [exec_keeps_cmd he, hc, hf]
  · simp [exec_keeps_cmd he, hp, hf]
  · exact otherStep_takes_cmd_iff hr hc ho

/-- Settles O11: nothing is pending, so the step is the arrival of an input or a rest. -/
theorem stepLetsTheNextInputArrive : Obligations.StepLetsTheNextInputArrive :=
  fun _ hr hp hf hc =>
    ⟨fun hi => (OtherStep.rest hr hp hf hc hi).step,
      fun i rest hi => (OtherStep.arrival i rest hr hp hf hc hi).step⟩

end Sys2Proof.Proofs
end

section
/-! PROOF. The statements about exceptions: O10, O16, O34, O53. First the layer they rest on: the answer to an
illegal word, the ignored expiry, and what a transition can emit that leaves `RUN` at 0. -/

namespace Sys2Proof.Machine

open Safety

variable {s t u : State}

/-! ### The illegal word and the ignored expiry -/

/-- R65: an illegal word is rejected by the decoder. -/
theorem decode_illegal {w : CommandWord} (h : WellFormed.legalWord w = false) :
    ∃ e, decode (.host w) = .error e := by
  cases hd : decode (.host w) with
  | error e => exact ⟨e, rfl⟩
  | ok i =>
    obtain ⟨hlegal, -⟩ := Proofs.exactlyTheLegalWordsDecode
    exact absurd ((hlegal (.host w)).1 ⟨i, hd⟩) (Bool.eq_false_iff.1 h)

/-- R182: while the one-shot is not armed an expiry does nothing. -/
theorem tickOn_not_armed (c : Config) (h : s.armed = false) : tickOn c s = s := by
  rcases tickOn_accepted_or_same c s with ⟨ha, -⟩ | hsame
  · exact absurd ha (Bool.eq_false_iff.1 h)
  · exact hsame

/-! ### What is emitted while no `INIT` has succeeded -/

/-- A response, or a configuration that the GPIO facility refused (R62, R142). -/
def Event.isResponseOrRefusal (e : Event) : Prop :=
  (∃ r, e = .respond r) ∨ ∃ p, e = .gpioConfigure p platform.pullMode true false

/-- From s to t the block has emitted nothing but responses and refused configurations. -/
def TicklessFrom (s t : State) : Prop :=
  ∃ new, t.events = s.events ++ new ∧ ∀ e ∈ new, e.isResponseOrRefusal

theorem TicklessFrom.of_events_eq (h : t.events = s.events) : TicklessFrom s t :=
  ⟨[], by rw [h, List.append_nil], nofun⟩

theorem TicklessFrom.of_response {r : Response} (h : t.events = s.events ++ [.respond r]) :
    TicklessFrom s t :=
  ⟨_, h, List.forall_mem_singleton.2 (.inl ⟨r, rfl⟩)⟩

theorem TicklessFrom.trans (hst : TicklessFrom s t) (htu : TicklessFrom t u) : TicklessFrom s u := by
  obtain ⟨new, hev, hnew⟩ := hst
  obtain ⟨new', hev', hnew'⟩ := htu
  exact ⟨new ++ new', by rw [hev', hev, List.append_assoc],
    List.forall_mem_append.2 ⟨hnew, hnew'⟩⟩

/-- R141: an `INIT` that leaves `RUN` at 0 was refused. -/
theorem pinOk_eq_false_of_run {c : Config} {p : Pin} (h : (initOn c p s).run = false) :
    c.pinOk p = false := by
  by_contra hok
  replace hok := Bool.eq_true_of_not_eq_false hok
  cases hrun : s.run with
  | true => simp [initOn_running hok hrun, hrun] at h
  | false => simp [initOn_first hok hrun] at h

/-- R182, R216: an instruction that finds the one-shot not armed and leaves `RUN` at 0 makes no tick. -/
theorem exec_tickless {i : Instr} (ha : s.armed = false) (h : exec i s = .next t)
    (hrun : t.run = false) : TicklessFrom s t := by
  cases i with
  | init p =>
    rw [exec_init h] at hrun ⊢
    rw [initOn_refused (pinOk_eq_false_of_run hrun)]
    exact ⟨_, rfl, by simp [Event.isResponseOrRefusal]⟩
  | tick =>
    rw [exec_tick h, tickOn_not_armed platform ha]
    exact .of_events_eq rfl
  | start p => exact exec_start h ▸ .of_response rfl
  | stop p => exact exec_stop h ▸ .of_response rfl
  | setsp p v => exact exec_setsp h ▸ .of_response rfl
  | getsp p => exact exec_getsp h ▸ .of_response rfl

/-! ### Steps and runs that leave `RUN` at 0 -/

theorem exec_keeps_noResetAhead {i : Instr} (hahead : noResetAhead s) (h : exec i s = .next t) :
    noResetAhead t := by
  obtain ⟨-, -, -, -, -, -, -, hrst, hinputs, -⟩ := Proofs.eachRegisterHasItsWriters i s t h
  rwa [noResetAhead, hrst, hinputs]

/-- With no reset ahead and SEQ idle, what happens where no instruction is taken is the answer to an
illegal word or silent. -/
theorem otherStep_tickless (hidle : s.ph = .idle) (hahead : noResetAhead s) (ho : OtherStep s t) :
    noResetAhead t ∧ TicklessFrom s t := by
  cases ho with
  | reset k hr => exact absurd (hahead.1.symm.trans hr) nofun
  | sequencer _ hph => exact absurd hidle hph
  | illegal => exact ⟨hahead, .of_response rfl⟩
  | arrival i rest _ _ _ _ hi =>
    obtain ⟨-, hall⟩ := hahead
    rw [hi, List.forall_mem_cons] at hall
    exact ⟨hall, .of_events_eq rfl⟩
  | rest => exact ⟨hahead, .of_events_eq rfl⟩

/-- A step makes no tick if `RUN` is 0 before and after it: the one-shot is armed only while `RUN` is 1. -/
theorem step_tickless (hinv : Inv s) (hahead : noResetAhead s) (hs : StepsTo s t) :
    noResetAhead t ∧ (s.run = false → t.run = false → TicklessFrom s t) := by
  rcases step_cases hs with ⟨_, _, _, he⟩ | ⟨_, _, _, _, _, _, _, he⟩ | ho
  · exact ⟨exec_keeps_noResetAhead (s := { s with fire := false }) hahead he,
      fun hstop => exec_tickless (s := { s with fire := false })
        (hinv.armedWhenRunning.trans hstop) he⟩
  · exact ⟨exec_keeps_noResetAhead (s := { s with cmd := none }) hahead he,
      fun hstop => exec_tickless (s := { s with cmd := none })
        (hinv.armedWhenRunning.trans hstop) he⟩
  · obtain ⟨hahead', htickless⟩ := otherStep_tickless hinv.seqIdle hahead ho
    exact ⟨hahead', fun _ _ => htickless⟩

/-- R216: what a run from s keeps of the state u it has reached. Where `RUN` is still 0, there has been
no tick. -/
def NoTickYet (s u : State) : Prop :=
  Inv u ∧ noResetAhead u ∧ (u.run = false → TicklessFrom s u)

/-- Every step keeps it: a step that leaves `RUN` at 0 found it at 0, because none clears it. -/
theorem step_keeps_noTickYet (h : NoTickYet s t) (hs : StepsTo t u) : NoTickYet s u := by
  obtain ⟨hinv, hahead, htickless⟩ := h
  obtain ⟨hahead', hstep⟩ := step_tickless hinv hahead hs
  refine ⟨inv_step hinv hs, hahead', fun hu => ?_⟩
  have ht : t.run = false := by
    by_contra hrun
    obtain ⟨-, hu'⟩ := Proofs.step_keeps_running hinv hahead (Bool.eq_true_of_not_eq_false hrun) hs
    exact Bool.eq_false_iff.1 hu hu'
  exact (htickless ht).trans (hstep ht hu)

end Sys2Proof.Machine

namespace Sys2Proof.Proofs

open Sys2Proof.Machine Sys2Proof.Safety

/-- Settles O53: a run that ends with `RUN = 0` has it at 0 throughout, so each of its steps is tickless. -/
theorem noTickBeforeTheFirstSuccessfulInit : Obligations.NoTickBeforeTheFirstSuccessfulInit := by
  intro k s t hinv hahead hruns hrun
  have hstart : NoTickYet s s := ⟨hinv, hahead, fun _ => .of_events_eq rfl⟩
  obtain ⟨-, -, htickless⟩ := runsTo_invariant (fun _ _ => step_keeps_noTickYet) hstart hruns
  exact htickless hrun

/-- Settles O10: the decoder rejects the word, and the answer is all that the step does. -/
theorem stepAnswersAnIllegalWord : Obligations.StepAnswersAnIllegalWord := by
  refine ⟨fun s w hr hp hf hc hw => ?_, Response.word_toNat _⟩
  obtain ⟨e, hd⟩ := decode_illegal hw
  exact (OtherStep.illegal w e hr hp hf hc hd).step

/-- Settles O16: whatever is fetched, performing it answers a next state. -/
theorem everyStepGivesANextState : Obligations.EveryStepGivesANextState :=
  fun s => perform_next (fetch platform s)

/-- Settles O34. -/
theorem spuriousExpiryIsIgnored : Obligations.SpuriousExpiryIsIgnored :=
  fun _ h => congrArg Host.Outcome.next (tickOn_not_armed platform h)

end Sys2Proof.Proofs
end

section
/-! PROOF. The statement about what reset leaves of the operation in progress: O13. It rests on one fact, the
record after a reset. -/

namespace Sys2Proof.Machine

/-- R210: of the events `new` that the abandoned transition would have added, the record after the reset
holds the first k; what was recorded before it is kept whole. -/
theorem abandonAfter_events {c : Config} {s u : State} {new : List Event} (k : Nat)
    (hu : perform (takeNext c { s with rst := none }) = .next u) (hnew : u.events = s.events ++ new) :
    (abandonAfter c k s).events = s.events ++ new.take k := by
  obtain ⟨-, hev⟩ := afterReset_keeps c (s.resets + 1) s.clk s.inputs
    (u.events.take (s.events.length + k))
  rw [abandonAfter_eq c k hu, hev, hnew, List.take_length_add_append]

end Sys2Proof.Machine

namespace Sys2Proof.Proofs

open Sys2Proof.Machine

/-- Settles O13: with `rst_n` high the step only adds to the record, and reset cuts what it adds after k
events. -/
theorem resetAbandonsTheOperationInProgress : Obligations.ResetAbandonsTheOperationInProgress := by
  intro s k hr
  obtain ⟨u, hu⟩ := everyStepGivesANextState { s with rst := none }
  obtain ⟨new, hnew⟩ := step_appends rfl hu
  have habandoned := (step_takeNext (s := { s with rst := none }) rfl).symm.trans hu
  exact ⟨_, u, new, step_reset hr, hu, hnew, abandonAfter_events k habandoned hnew⟩

end Sys2Proof.Proofs
end
